-- ==== Sys2Proof/Word.lean ====
section
/-! DEFINITION. The word types of the machine (spec/00_scope.md rules R11, R12). -/

namespace Sys2Proof

/-- A `u32`: a register value, the pc, an instruction word (R12, R20, R26, R60). -/
abbrev Word := BitVec 32

/-- A byte of memory (R40) or an 8-bit opcode key (R61). -/
abbrev Byte := BitVec 8

/-- The number of a general register, `r0` to `r31` (R20, R21). -/
abbrev GprIdx := Fin 32

/-- An index of the register file, 0 to 35 (R20, R24). -/
abbrev RegIdx := Fin 36

end Sys2Proof
end

