-- ==== Sys2Proof/Config.lean ====
section
/-! DEFINITION. The configuration record: what a launch fixes at reset and never changes (spec/00_scope.md rules
R5 to R9). The values of this hardware stand in Decode.lean (`defaultKeys`) and Machine/Launch.lean (`defaultConfig`). -/

namespace Sys2Proof

/-- The five populated keys of the 256-entry opcode table (R9, R31, R84). R9 lets a model keep the five names as
parameters. PRESUMED values, see log 2. -/
structure OpKeys where
  /-- `KEY_LIS` -/
  lis : Byte
  /-- `KEY_ADDI` -/
  addi : Byte
  /-- `KEY_LWZ` -/
  lwz : Byte
  /-- `KEY_MTSPR` -/
  mtspr : Byte
  /-- `KEY_SC` -/
  sc : Byte
  deriving DecidableEq, Repr

/-- The configuration record of rules R5 to R9. `HOST` (R10) is not in it: its answer never enters the machine (R108). -/
structure Config where
  /-- `CAPACITY`: the number of bytes of memory (R5). -/
  capacity : Nat
  /-- `ENTRY`: the pc at reset (R6). -/
  entry : Word
  /-- `STACK_INIT`: general register 1 at reset (R7). -/
  stackInit : Word
  /-- `IMAGE`: the bytes loaded at address 0 at reset (R8). -/
  image : List Byte
  /-- `OPTABLE`, by its five populated keys (R9). -/
  keys : OpKeys
  deriving DecidableEq, Repr

end Sys2Proof
end

