-- ==== Sys2Proof/Syntax.lean ====
section
/-! DEFINITION. The instructions (spec/opcode_table.json, one constructor per row), the handlers of the opcode table,
and the assembler syntax with its pseudo-instructions (spec/30_encoding.md rules R71, R72). -/

namespace Sys2Proof

/-- One constructor per row of the opcode table. The bits a handler ignores (R68) are no operands. -/
inductive Instr where
  /-- The halt opcode, key 0x00 (R88). -/
  | halt
  /-- `addi rA, rB, imm`, and `li rA, imm` when the field `FB` is 0 (R96). -/
  | addi (fa fb : GprIdx) (imm : BitVec 16)
  /-- `lis rA, imm` (R95). -/
  | lis (fa : GprIdx) (imm : BitVec 16)
  /-- `sc` (R105). -/
  | sc
  /-- `mtspr sel, rA` (R100). -/
  | mtspr (fa : GprIdx) (sel : BitVec 21)
  /-- `lwz rA, imm(rB)` (R97). -/
  | lwz (fa fb : GprIdx) (imm : BitVec 16)
  deriving DecidableEq, Repr

/-- What an entry of the opcode table can name (R84): `halt` is none of them, its key never reaches the table (R83). -/
inductive Handler where
  | addi | lis | sc | mtspr | lwz
  deriving DecidableEq, Repr

/-- A line of assembler text (R71) or a pseudo-instruction (R72), operands as the numbers written. -/
inductive Asm where
  | halt
  | lis (a imm : Nat)
  | addi (a b imm : Nat)
  | li (a imm : Nat)
  | lwz (a imm b : Nat)
  | mtspr (sel a : Nat)
  | mtctr (a : Nat)
  | mtlr (a : Nat)
  | mtxer (a : Nat)
  | nop
  | sc
  deriving DecidableEq, Repr

end Sys2Proof
end

