-- ==== Sys2Proof/WellFormed.lean ====
section
/-! DEFINITION. The well-formedness checks. An `Instr` needs none: its operands are typed to the width of their fields
(R62 to R65), so that an instruction out of range cannot be written down. What is checked: the key map of the opcode
table (R9), the configuration record of a launch (R5, R6, R8), and a line of assembler text (R70, R71). -/

namespace Sys2Proof

/-- The five keys as a list, in the order of R9. -/
def OpKeys.toList (k : OpKeys) : List Byte := [k.lis, k.addi, k.lwz, k.mtspr, k.sc]

/-- R9: the keys are "pairwise different, multiples of 4 and not 0x00". -/
def OpKeys.wellFormed (k : OpKeys) : Bool :=
  decide (k.toList.Nodup) && k.toList.all (fun b => b.toNat % 4 == 0) && k.toList.all (fun b => b != 0)

/-- A well-formed launch: `1 <= CAPACITY <= 2^32 - 1` (R5), `ENTRY mod 4 = 0` (R6), `length(IMAGE) <= 512` and
`length(IMAGE) <= CAPACITY` (R8), and a well-formed key map (R9). -/
def Config.wellFormed (c : Config) : Bool :=
  decide (1 ≤ c.capacity) && decide (c.capacity ≤ 2 ^ 32 - 1) && decide (c.entry.toNat % 4 = 0)
    && decide (c.image.length ≤ 512) && decide (c.image.length ≤ c.capacity) && c.keys.wellFormed

/-- The operand ranges of R70 and R71: registers below 32, immediates below 65536, selectors below 2^21, and
`B != 0` in the add form of `addi`. -/
def Asm.wellFormed : Asm → Bool
  | .halt => true
  | .lis a imm => decide (a < 32) && decide (imm < 65536)
  | .addi a b imm => decide (a < 32) && decide (b < 32) && decide (b ≠ 0) && decide (imm < 65536)
  | .li a imm => decide (a < 32) && decide (imm < 65536)
  | .lwz a imm b => decide (a < 32) && decide (imm < 65536) && decide (b < 32)
  | .mtspr sel a => decide (sel < 2 ^ 21) && decide (a < 32)
  | .mtctr a => decide (a < 32)
  | .mtlr a => decide (a < 32)
  | .mtxer a => decide (a < 32)
  | .nop => true
  | .sc => true

end Sys2Proof
end

