-- ==== Sys2Proof/Decode.lean ====
section
/-! DEFINITION. Decoding and encoding (spec/30_encoding.md, spec/40_fetch_dispatch.md rules R83, R84), over any
opcode table; the key values of this hardware; the assembler. -/

namespace Sys2Proof

/-! ### The key values of this hardware -/

/-- `KEY_LIS = 0x3C`, `KEY_ADDI = 0x38`, `KEY_LWZ = 0x80`, `KEY_MTSPR = 0x7C`, `KEY_SC = 0x44` (R9, R67, R84).
PRESUMED, unsafe: the spec takes them from general knowledge (D1), see log 2. -/
def defaultKeys : OpKeys := { lis := 0x3C, addi := 0x38, lwz := 0x80, mtspr := 0x7C, sc := 0x44 }

/-! ### Fields of an instruction word -/

/-- `PO = w[31:26]` (R60). -/
def fieldPO (w : Word) : BitVec 6 := w.extractLsb' 26 6

/-- `KEY = (w >> 24) & 0xFC` (R61), the exact masking the document asks for. -/
def opKey (w : Word) : Byte := ((w >>> 24) &&& 0xFC#32).setWidth 8

/-- The register that a 5-bit field names (R62, R63). -/
def gprOfField (f : BitVec 5) : GprIdx := ⟨f.toNat, f.isLt⟩

/-- The 5-bit field that names a register. -/
def fieldOfGpr (r : GprIdx) : BitVec 5 := BitVec.ofNat 5 r.val

/-- `FA = w[25:21]` (R62). -/
def fieldFA (w : Word) : GprIdx := gprOfField (w.extractLsb' 21 5)

/-- `FB = w[20:16]` (R63). -/
def fieldFB (w : Word) : GprIdx := gprOfField (w.extractLsb' 16 5)

/-- `IMM = w[15:0]` (R64). -/
def fieldIMM (w : Word) : BitVec 16 := w.extractLsb' 0 16

/-- `SEL = w[20:0] = FB ∥ IMM` (R65). UNVERIFIED, unsafe: the spec's decision D2, see log 3. -/
def fieldSEL (w : Word) : BitVec 21 := w.extractLsb' 0 21

/-! ### The opcode table and the decoder -/

/-- The 256-entry table of R84 under a key map: an index with no entry is unpopulated. -/
def opTable (k : OpKeys) (key : Byte) : Option Handler :=
  if key = k.addi then some .addi
  else if key = k.lis then some .lis
  else if key = k.sc then some .sc
  else if key = k.mtspr then some .mtspr
  else if key = k.lwz then some .lwz
  else none

/-- The operand fields a handler takes from its word (R68, R85). -/
def decodeOperands (h : Handler) (w : Word) : Instr :=
  match h with
  | .addi => .addi (fieldFA w) (fieldFB w) (fieldIMM w)
  | .lis => .lis (fieldFA w) (fieldIMM w)
  | .sc => .sc
  | .mtspr => .mtspr (fieldFA w) (fieldSEL w)
  | .lwz => .lwz (fieldFA w) (fieldFB w) (fieldIMM w)

/-- Why a word is no instruction. -/
inductive DecodeError where
  /-- No handler is registered at the key (R89); it carries `KEY` (R134). -/
  | unimplementedOpcode (key : Byte)
  deriving DecidableEq, Repr

/-- The decoder over an arbitrary opcode table (R83, R91): the halt test first, then the table. -/
def decodeWith (table : Byte → Option Handler) (w : Word) : Except DecodeError Instr :=
  if opKey w = 0 then .ok .halt
  else
    match table (opKey w) with
    | none => .error (.unimplementedOpcode (opKey w))
    | some h => .ok (decodeOperands h w)

/-- The decoder under a key map (R83, R84). -/
def decode (k : OpKeys) (w : Word) : Except DecodeError Instr := decodeWith (opTable k) w

/-! ### Byte order -/

/-- Four bytes composed big-endian, most significant first (R45). -/
def composeBE (b0 b1 b2 b3 : Byte) : Word :=
  (b0.setWidth 32 <<< 24) ||| (b1.setWidth 32 <<< 16) ||| (b2.setWidth 32 <<< 8) ||| b3.setWidth 32

/-- The four bytes of a word as memory holds them, most significant first (R45, R60). -/
def wordBytes (w : Word) : List Byte :=
  [w.extractLsb' 24 8, w.extractLsb' 16 8, w.extractLsb' 8 8, w.extractLsb' 0 8]

/-- Why a byte string gives no instruction. -/
inductive BytesError where
  /-- Fewer than the four bytes of an instruction (R60). -/
  | truncated (present : Nat)
  /-- The word of the first four bytes is no instruction. -/
  | undecodable (e : DecodeError)
  deriving DecidableEq, Repr

/-- The decoder on any bytes: the instruction of the first four, and the rest. -/
def decodeBytes (k : OpKeys) : List Byte → Except BytesError (Instr × List Byte)
  | b0 :: b1 :: b2 :: b3 :: rest =>
    match decode k (composeBE b0 b1 b2 b3) with
    | .ok i => .ok (i, rest)
    | .error e => .error (.undecodable e)
  | short => .error (.truncated short.length)

/-- The word of the opcode table's numbering: `nbits` bits of `w`, every higher bit 0. -/
def tableWord (nbits w : Nat) : Word := BitVec.ofNat 32 (w % 2 ^ nbits)

/-- What the decoder reads from an instruction whose bits are `w`, laid out as memory stores it. -/
def decodeTableWord (nbits w : Nat) : Option Instr :=
  match decodeBytes defaultKeys (wordBytes (tableWord nbits w)) with
  | .ok (i, _) => some i
  | .error _ => none

/-! ### The encoder -/

/-- `enc(KEY, FA, FB, IMM)` of R70. -/
def enc (key : Byte) (fa fb : GprIdx) (imm : BitVec 16) : Word :=
  (key.setWidth 32 <<< 24) ||| ((fieldOfGpr fa).setWidth 32 <<< 21) ||| ((fieldOfGpr fb).setWidth 32 <<< 16)
    ||| imm.setWidth 32

/-- The word of `mtspr` in R70: the key, the source register and the 21-bit selector. -/
def encSel (key : Byte) (fa : GprIdx) (sel : BitVec 21) : Word :=
  (key.setWidth 32 <<< 24) ||| ((fieldOfGpr fa).setWidth 32 <<< 21) ||| sel.setWidth 32

/-- The canonical word of an instruction, ignored bits 0 (R70). -/
def encode (k : OpKeys) : Instr → Word
  | .halt => 0x00000000
  | .addi fa fb imm => enc k.addi fa fb imm
  | .lis fa imm => enc k.lis fa 0 imm
  | .sc => enc k.sc 0 0 0
  | .mtspr fa sel => encSel k.mtspr fa sel
  | .lwz fa fb imm => enc k.lwz fa fb imm

/-- The canonical bytes of an instruction as memory holds them (R45, R70). -/
def encodeBytes (k : OpKeys) (i : Instr) : List Byte := wordBytes (encode k i)

/-- The bits of a word that a decoded instruction's key and operands occupy: the complement of the ignored bits of
R68. -/
def usedBits : Instr → Word
  | .halt => 0xFC000000
  | .addi _ _ _ => 0xFFFFFFFF
  | .lis _ _ => 0xFFE0FFFF
  | .sc => 0xFC000000
  | .mtspr _ _ => 0xFFFFFFFF
  | .lwz _ _ _ => 0xFFFFFFFF

/-- The key of an instruction under a key map (R67). -/
def instrKey (k : OpKeys) : Instr → Byte
  | .halt => 0x00
  | .addi _ _ _ => k.addi
  | .lis _ _ => k.lis
  | .sc => k.sc
  | .mtspr _ _ => k.mtspr
  | .lwz _ _ _ => k.lwz

/-! ### The assembler -/

/-- The register a well-formed assembler line names; a number out of range is taken modulo 32 and is refused by
`Asm.wellFormed` before it gets here. -/
def asmGpr (n : Nat) : GprIdx := gprOfField (BitVec.ofNat 5 n)

/-- The instruction of an assembler line, with the expansions of R72; `none` when the line is not well formed
(DESIGN CHOICE, log 27). UNVERIFIED (names only): the spec's decision D16, see log 24. -/
def asmInstr (x : Asm) : Option Instr :=
  if x.wellFormed then
    match x with
    | .halt => some .halt
    | .lis a imm => some (.lis (asmGpr a) (BitVec.ofNat 16 imm))
    | .addi a b imm => some (.addi (asmGpr a) (asmGpr b) (BitVec.ofNat 16 imm))
    | .li a imm => some (.addi (asmGpr a) 0 (BitVec.ofNat 16 imm))
    | .lwz a imm b => some (.lwz (asmGpr a) (asmGpr b) (BitVec.ofNat 16 imm))
    | .mtspr sel a => some (.mtspr (asmGpr a) (BitVec.ofNat 21 sel))
    | .mtctr a => some (.mtspr (asmGpr a) 0x1001)
    | .mtlr a => some (.mtspr (asmGpr a) 0x1000)
    | .mtxer a => some (.mtspr (asmGpr a) 0x0001)
    | .nop => some (.mtspr 0 0)
    | .sc => some .sc
  else none

/-- The word an assembler line stands for (R70 to R72). -/
def assemble (k : OpKeys) (x : Asm) : Option Word := (asmInstr x).map (encode k)

end Sys2Proof
end

