-- ==== Sys2Proof/Machine/Memory.lean ====
section
/-! DEFINITION. The memory array (spec/20_memory.md rules R40, R41): a sparse list of cells in one canonical form.
The bound `CAPACITY` is checked by the operations of Machine/Ops.lean. -/

namespace Sys2Proof.Machine

/-- Memory: the cells that hold a byte other than 0, addresses strictly rising (R40; log 19). -/
abbrev Memory := List Host.Cell

/-- What an unlisted address reads as: memory is "zero-initialized" (R40). -/
def unlistedByte : Byte := 0

/-- The byte at an address (R41 `read_byte`). -/
def Memory.read : Memory → Nat → Byte
  | [], _ => unlistedByte
  | (b, v) :: m, a => if a = b then v else Memory.read m a

/-- A cell put before a list, unless it holds what an unlisted address reads as. -/
def Memory.cons (a : Nat) (v : Byte) (m : Memory) : Memory :=
  if v = unlistedByte then m else (a, v) :: m

/-- The memory after a byte is written (R41 `write_byte`). -/
def Memory.write : Memory → Nat → Byte → Memory
  | [], a, v => Memory.cons a v []
  | (b, u) :: m, a, v =>
    if a < b then Memory.cons a v ((b, u) :: m)
    else if a = b then Memory.cons a v m
    else (b, u) :: Memory.write m a v

/-- `load_image(bytes, at_offset)`: `mem[at_offset + i] <- bytes[i]` (R41). -/
def Memory.load : Memory → List Byte → Nat → Memory
  | m, [], _ => m
  | m, b :: bs, off => Memory.load (Memory.write m off b) bs (off + 1)

/-- The canonical form: addresses strictly rising, no cell equal to what an unlisted address reads as. -/
abbrev Memory.wf (m : Memory) : Prop :=
  (m.map Prod.fst).Pairwise (· < ·) ∧ ∀ c ∈ m, c.2 ≠ unlistedByte

/-- Every listed address lies in `0 .. cap - 1` (R40). -/
abbrev Memory.within (m : Memory) (cap : Nat) : Prop := ∀ c ∈ m, c.1 < cap

end Sys2Proof.Machine
end

