-- ==== Sys2Proof/Machine/Launch.lean ====
section
/-! DEFINITION. The default configuration, and what reset writes into the registers and the memory
(spec/70_reset_and_hazards.md rule R150). -/

namespace Sys2Proof.Machine

/-- The defaults of rules R5 (`CAPACITY`), R6 (`ENTRY`), R7 (`STACK_INIT`), R9 (the keys). `IMAGE` has no default in
the spec: DESIGN CHOICE, the empty image, see log 5. -/
def defaultConfig : Config :=
  { capacity := 0x40000, entry := 0xB0, stackInit := 0x500, image := [], keys := defaultKeys }

/-- R150: `x[i] <- 0` for every register, then `x[1] <- STACK_INIT`. -/
def launchRegs (c : Config) : Vector Word 36 := (Vector.replicate 36 0).set 1 c.stackInit

/-- R150: memory zero, then `load_image(IMAGE, 0)`. -/
def launchMem (c : Config) : Memory := Memory.load [] c.image 0

end Sys2Proof.Machine
end

