-- ==== Sys2Proof/Machine/State.lean ====
section
/-! DEFINITION. The whole state of the machine (spec/10_state.md), its faults and refusals, and the state after reset
(spec/70_reset_and_hazards.md rule R150). -/

namespace Sys2Proof.Machine

/-- The four conditions that end a run (R29, R130). -/
inductive HaltReason where
  /-- The halt opcode was reached: normal termination, not an error (R88). -/
  | endOfProgram
  /-- No handler at the key that was looked up (R89, R134). -/
  | unimplementedOpcode (key : Byte)
  /-- An address or index outside the allocated range (R133). -/
  | outOfBounds
  /-- The exit call of `sc` (R107); the code is signed (R109). -/
  | hostExit (code : Int)
  deriving DecidableEq, Repr

/-- `Running` or `Halted(reason)` (R29). -/
inductive RunState where
  | running
  | halted (reason : HaltReason)
  deriving DecidableEq, Repr

/-- A request the core has sent to the host bridge (R30). -/
inductive HostRequest where
  | write (fd : Int) (bytes : List Byte)
  | exit (code : Int)
  deriving DecidableEq, Repr

/-- The state of the machine (10_state.md), with the configuration record beside it (log 1). -/
structure State where
  /-- The register file: r0 to r31, then CR, LR, CTR, XER at 32 to 35 (R20). -/
  regs : Vector Word 36
  /-- The program counter, a byte offset into memory (R26). -/
  pc : Word
  /-- The memory array (R33, R40). -/
  mem : Memory
  /-- The run state (R29). -/
  run : RunState
  /-- The requests sent to the host, oldest first (R30). -/
  hostlog : List HostRequest
  /-- The configuration record of the launch, which no step changes (R5 to R9, R31). -/
  cfg : Config
  deriving DecidableEq, Repr

/-- Why a step gives no next state. -/
inductive Fault where
  /-- Raised by `step` alone: the run has ended, a halted state has no step (R118, R139). Safe: the spec says that no
  step exists. It carries the reason of the halt. -/
  | halted (reason : HaltReason)
  deriving DecidableEq, Repr

/-- Why an instruction is refused. -/
inductive Refusal where
  /-- An arm of `exec` with no meaning yet. Safe. No arm raises it: every instruction has its meaning. -/
  | notModelled (mnemonic : String)
  deriving DecidableEq, Repr

/-- Reset with a configuration record (R150): the state in which a run starts. -/
def State.launch (c : Config) : State :=
  { regs := launchRegs c, pc := c.entry, mem := launchMem c, run := .running, hostlog := [], cfg := c }

/-- The machine right after reset, under the default configuration (R35, R150). -/
def State.reset : State := State.launch defaultConfig

end Sys2Proof.Machine
end

