-- ==== Sys2Proof/Machine/Ops.lean ====
section
/-! DEFINITION. The named operations over registers, pc, memory, host log and run state: the primitives of
spec/00_scope.md rule R12, and raising a condition (spec/60_exceptions.md rule R131). -/

namespace Sys2Proof.Machine

/-! ### Registers -/

/-- `x[i]` (R12, R24). -/
def State.reg (s : State) (i : RegIdx) : Word := s.regs[i]

/-- `x[i] <- v` (R12, R24). -/
def State.setReg (s : State) (i : RegIdx) (v : Word) : State := { s with regs := s.regs.set i v }

/-- The index of a general register in the register file (R20). -/
def gprIndex (r : GprIdx) : RegIdx := ⟨r.val, by omega⟩

/-- Read of a general register. -/
def State.gpr (s : State) (r : GprIdx) : Word := s.reg (gprIndex r)

/-- Write of a general register; `r0` is an ordinary register (R22). -/
def State.setGpr (s : State) (r : GprIdx) (v : Word) : State := s.setReg (gprIndex r) v

/-- The register contract `read(index)` on any number: an index outside 0 to 35 is `OutOfBounds` (R24). No
instruction can produce one, since their indices are typed. -/
def State.readIndex (s : State) (i : Nat) : Except HaltReason Word :=
  if h : i < 36 then .ok (s.reg ⟨i, h⟩) else .error .outOfBounds

/-- The register contract `write(index, value)` on any number (R24). -/
def State.writeIndex (s : State) (i : Nat) (v : Word) : Except HaltReason State :=
  if h : i < 36 then .ok (s.setReg ⟨i, h⟩ v) else .error .outOfBounds

/-! ### Program counter -/

/-- `pc <- pc + 4`, the last action of every handler that completes (R27). -/
def State.advance (s : State) : State := { s with pc := s.pc + 4 }

/-! ### Memory -/

/-- `MemRead(a, 1)` (R44). -/
def State.memRead1 (s : State) (a : Nat) : Except HaltReason Byte :=
  if s.cfg.capacity ≤ a then .error .outOfBounds else .ok (s.mem.read a)

/-- `MemRead(a, 4)`, big-endian; the address sum is exact (R43, R45). -/
def State.memRead4 (s : State) (a : Nat) : Except HaltReason Word :=
  if s.cfg.capacity ≤ a + 3 then .error .outOfBounds
  else .ok (composeBE (s.mem.read a) (s.mem.read (a + 1)) (s.mem.read (a + 2)) (s.mem.read (a + 3)))

/-- `MemBytes(a, len)`: the whole range is checked first; a length of 0 touches no byte (R46). -/
def State.memBytes (s : State) (a len : Nat) : Except HaltReason (List Byte) :=
  if 0 < len ∧ s.cfg.capacity < a + len then .error .outOfBounds
  else .ok ((List.range' a len).map s.mem.read)

/-- `MemWrite(a, 1, v)`. No instruction uses it (R12, R49). -/
def State.memWrite1 (s : State) (a : Nat) (v : Byte) : Except HaltReason State :=
  if s.cfg.capacity ≤ a then .error .outOfBounds else .ok { s with mem := s.mem.write a v }

/-! ### Host bridge -/

/-- `emit`: append one request to the host log (R12, R30). What the host answers is discarded (R108). -/
def State.emit (s : State) (r : HostRequest) : State := { s with hostlog := s.hostlog ++ [r] }

/-! ### Raising a condition

This is the whole of taking an exception on this hardware: no register saves anything, no mode changes, and control
goes nowhere in memory (R138). There is no return from it (R139). -/

/-- `raise`: the run state becomes `Halted(reason)` and nothing else changes (R131). -/
def State.raise (s : State) (reason : HaltReason) : State := { s with run := .halted reason }

/-- How a handler ends, given what its work on the state `s` gave: the pc advanced by 4 if it completed (R27), else
the condition raised in `s` itself, so that no other write of the step is kept (R131). -/
def State.finish (s : State) (work : Except HaltReason State) : State :=
  match work with
  | .ok t => t.advance
  | .error reason => s.raise reason

end Sys2Proof.Machine
end

