-- ==== Sys2Proof/Machine/Operands.lean ====
section
/-! DEFINITION. Every operand form: immediates (spec/30_encoding.md rule R66), the two masked addresses
(spec/20_memory.md rule R51), the `mtspr` selector (spec/42_mtspr.md rule R100) and the arguments of `sc`
(spec/43_syscall.md rules R105, R109). -/

namespace Sys2Proof.Machine

/-- `sext_32(IMM) << 16`, the operand of `lis` (R66, R95). -/
def lisOperand (imm : BitVec 16) : Word := imm.signExtend 32 <<< 16

/-- `zext_32(IMM)`, the immediate of `addi` (R66). -/
def zextImm (imm : BitVec 16) : Word := imm.setWidth 32

/-- What `addi` writes: the test is on the field value `FB`, and with `FB = 0` no register is read (R96). The sum is
modulo 2^32 (R98). -/
def addiResult (s : State) (fb : GprIdx) (imm : BitVec 16) : Word :=
  if fb = 0 then zextImm imm else s.gpr fb + zextImm imm

/-- The address mask of `lwz` (R51). -/
def lwzMask : Word := 0x0FFFFFFF#32

/-- The address mask of the `sc` write buffer (R51); a constant of its own. -/
def scMask : Word := 0x0FF0FFFF#32

/-- `(x[FB] & 0x0FFFFFFF) + zext_32(IMM)`, an exact sum of natural numbers (R43, R97). -/
def lwzAddress (s : State) (fb : GprIdx) (imm : BitVec 16) : Nat := (s.gpr fb &&& lwzMask).toNat + imm.toNat

/-- The special register a selector names, if any (R100; `SPR_SELECT` of R101). -/
def sprSelect (sel : BitVec 21) : Option RegIdx :=
  if sel = 0x001001 then some 34
  else if sel = 0x001000 then some 33
  else if sel = 0x000001 then some 35
  else none

/-- `as_i32(v)`: the bit pattern read as a two's-complement number (R105, R109). -/
def asI32 (v : Word) : Int := v.toInt

/-- The call number of `sc`: the whole of `x[0]` (R105, R110). -/
def scNumber (s : State) : Word := s.gpr 0

/-- The descriptor of a write call, or the code of an exit call: `as_i32(x[3])` (R105, R109). -/
def scArgument (s : State) : Int := asI32 (s.gpr 3)

/-- `x[4] & 0x0FF0FFFF`, where the write buffer starts (R105, R106). -/
def scStart (s : State) : Nat := (s.gpr 4 &&& scMask).toNat

/-- `x[5]`, the length of the write buffer (R105). -/
def scLength (s : State) : Nat := (s.gpr 5).toNat

end Sys2Proof.Machine
end

