-- ==== Sys2Proof/Machine/ArithLoad.lean ====
section
/-! DEFINITION. The arithmetic and load handlers (spec/41_arith_load.md). -/

namespace Sys2Proof.Machine

/-- `addi rA, rB, imm` and `li rA, imm` (R96). -/
def execAddi (fa fb : GprIdx) (imm : BitVec 16) (s : State) : Host.Outcome State Fault Refusal :=
  .next (s.finish (.ok (s.setGpr fa (addiResult s fb imm))))

/-- `lis rA, imm` (R95). -/
def execLis (fa : GprIdx) (imm : BitVec 16) (s : State) : Host.Outcome State Fault Refusal :=
  .next (s.finish (.ok (s.setGpr fa (lisOperand imm))))

/-- `lwz rA, imm(rB)`: ONE byte, zero-extended (R97; log 25). -/
def execLwz (fa fb : GprIdx) (imm : BitVec 16) (s : State) : Host.Outcome State Fault Refusal :=
  .next (s.finish ((s.memRead1 (lwzAddress s fb imm)).map fun b => s.setGpr fa (b.setWidth 32)))

end Sys2Proof.Machine
end

