-- ==== Sys2Proof/Machine/Halt.lean ====
section
/-! DEFINITION. The halt opcode (spec/40_fetch_dispatch.md rule R88). -/

namespace Sys2Proof.Machine

/-- `raise EndOfProgram`: the pc keeps the address of the halting word (R88). -/
def execHalt (s : State) : Host.Outcome State Fault Refusal := .next (s.raise .endOfProgram)

end Sys2Proof.Machine
end

