-- ==== Sys2Proof/Machine/SpecialMove.lean ====
section
/-! DEFINITION. The special-register move handler (spec/42_mtspr.md). -/

namespace Sys2Proof.Machine

/-- `mtspr sel, rA`: an unlisted selector is a no-op that advances the pc (R100). -/
def execMtspr (fa : GprIdx) (sel : BitVec 21) (s : State) : Host.Outcome State Fault Refusal :=
  .next (s.finish (.ok (match sprSelect sel with
    | some r => s.setReg r (s.gpr fa)
    | none => s)))

end Sys2Proof.Machine
end

