-- ==== Sys2Proof/Machine/SystemCall.lean ====
section
/-! DEFINITION. The system call bridge handler (spec/43_syscall.md). -/

namespace Sys2Proof.Machine

/-- The write call: the buffer is read whole, or the step raises `OutOfBounds` and nothing is logged (R106). -/
def scWrite (s : State) : State :=
  s.finish ((s.memBytes (scStart s) (scLength s)).map fun bytes => s.emit (.write (scArgument s) bytes))

/-- The exit call: `Exit(code)` is logged, then `HostExit(code)` is raised; the pc is not advanced (R107). -/
def scExit (s : State) : State := (s.emit (.exit (scArgument s))).raise (.hostExit (scArgument s))

/-- `sc` (R105): the call number is the whole of `x[0]`; any number but 4 and 1 is a no-op (R110). -/
def execSc (s : State) : Host.Outcome State Fault Refusal :=
  if scNumber s = 4 then .next (scWrite s)
  else if scNumber s = 1 then .next (scExit s)
  else .next (s.finish (.ok s))

end Sys2Proof.Machine
end

