-- ==== Sys2Proof/Machine/Dispatch.lean ====
section
/-! DEFINITION. The meaning of each instruction, one arm per row of spec/opcode_table.json. -/

namespace Sys2Proof.Machine

def exec (i : Instr) (s : State) : Host.Outcome State Fault Refusal :=
  match i with
  | .halt => Sys2Proof.Machine.execHalt s
  | .addi fa fb imm => Sys2Proof.Machine.execAddi fa fb imm s
  | .lis fa imm => Sys2Proof.Machine.execLis fa imm s
  | .sc => Sys2Proof.Machine.execSc s
  | .mtspr fa sel => Sys2Proof.Machine.execMtspr fa sel s
  | .lwz fa fb imm => Sys2Proof.Machine.execLwz fa fb imm s

end Sys2Proof.Machine
end

