-- ==== Sys2Proof/Machine/Fetch.lean ====
section
/-! DEFINITION. The fetcher and the part of a step before the handler (spec/40_fetch_dispatch.md rules R80 to R83,
spec/44_execution_loop.md rules R115, R116). -/

namespace Sys2Proof.Machine

/-- `fetch_word(pc, byte_offset)`: a natural-number offset in bytes, no alignment requirement, no mask (R80, R81). -/
def State.fetchWord (s : State) (pc byteOffset : Nat) : Except HaltReason Word := s.memRead4 (pc + byteOffset)

/-- The condition a decoding error raises (R89). -/
def decodeReason : DecodeError → HaltReason
  | .unimplementedOpcode key => .unimplementedOpcode key

/-- The instruction a step runs, or the condition it raises before any handler: the capacity test, the fetch at the
pc, the halt test and the table test, in this order (R115, R137). -/
def State.fetchInstr (s : State) : Except HaltReason Instr :=
  if s.cfg.capacity ≤ s.pc.toNat then .error .outOfBounds
  else
    match s.fetchWord s.pc.toNat 0 with
    | .error reason => .error reason
    | .ok w => (decode s.cfg.keys w).mapError decodeReason

/-- Memory with a word stored at an address in the byte order of the fetch (R45): what the loader's bytes leave there. -/
def storeWordBE (m : Memory) (a : Nat) (w : Word) : Memory := m.load (wordBytes w) a

end Sys2Proof.Machine
end

