-- ==== Sys2Proof/Machine/Step.lean ====
section
/-! DEFINITION. One step of the execution loop (spec/44_execution_loop.md rule R115). -/

namespace Sys2Proof.Machine

/-- One step (R115). A halted state has no step (R118): it answers the fault `halted` (log 6). -/
def step (s : State) : Host.Outcome State Fault Refusal :=
  match s.run with
  | .halted reason => .fault (.halted reason)
  | .running =>
    match s.fetchInstr with
    | .error reason => .next (s.raise reason)
    | .ok i => exec i s

/-- `s` with an instruction of the opcode table's numbering stored where `step` fetches next, at the pc (log 5). -/
def State.withFetchWord (s : State) (nbits w : Nat) : State :=
  { s with mem := storeWordBE s.mem s.pc.toNat (tableWord nbits w) }

end Sys2Proof.Machine
end

