-- ==== Sys2Proof/Machine/Flags.lean ====
section
/-! DEFINITION. The special registers under their names (spec/10_state.md rules R20, R21). There are no status flags and
no condition codes with a defined meaning: CR and XER are 32-bit cells with no fields, and no instruction writes any
register as a side effect (R25), so there is no flag computation to write. -/

namespace Sys2Proof.Machine

/-- CR, the Condition register: read and written by no instruction (R23, R25). -/
def State.cr (s : State) : Word := s.reg 32

/-- LR, the Link register: written by `mtspr` alone (R23). -/
def State.lr (s : State) : Word := s.reg 33

/-- CTR, the Count register: storage, not a counter (R142). -/
def State.ctr (s : State) : Word := s.reg 34

/-- XER, the Exception-state register: a placeholder that `mtspr` writes and nothing reads (R136). -/
def State.xer (s : State) : Word := s.reg 35

end Sys2Proof.Machine
end

