-- ==== Sys2Proof/Safety.lean ====
section
/-! DEFINITION. What claims about the machine speak of: which ends of a run are faults (spec/44_execution_loop.md rule
R118), a run of several steps (R117), what two states share when they differ in the special registers alone, and the invariant of a run that starts
with a well-formed launch. -/

namespace Sys2Proof.Machine

/-- `OutOfBounds` and `UnimplementedOpcode` are faults; `EndOfProgram` is the normal end and `HostExit` a requested one
(R118, R130). -/
def HaltReason.isFault : HaltReason → Bool
  | .endOfProgram => false
  | .unimplementedOpcode _ => true
  | .outOfBounds => true
  | .hostExit _ => false

/-- A run of `k` steps, as long as each gives a next state (R117). -/
def runSteps : Nat → State → Host.Outcome State Fault Refusal
  | 0, s => .next s
  | k + 1, s =>
    match step s with
    | .next t => runSteps k t
    | .fault reason => .fault reason
    | .refused reason => .refused reason

/-- The run has ended (R118). -/
def State.ended (s : State) : Prop := ∃ reason, s.run = .halted reason

/-- The two states agree on everything but the special registers CR, LR, CTR, XER (R23). -/
structure State.SameButSpecial (s t : State) : Prop where
  gprs : ∀ r : GprIdx, s.gpr r = t.gpr r
  pc : s.pc = t.pc
  mem : s.mem = t.mem
  run : s.run = t.run
  hostlog : s.hostlog = t.hostlog
  cfg : s.cfg = t.cfg

/-- A request that ends the process (R30). -/
def HostRequest.isExit : HostRequest → Bool
  | .write _ _ => false
  | .exit _ => true

/-- What holds in every state of a run that starts with a well-formed launch. -/
structure State.Inv (s : State) : Prop where
  /-- The configuration is that of a launch (R5, R6, R8, R9). -/
  config : s.cfg.wellFormed = true
  /-- Memory is what reset left (R49, R53). -/
  memory : s.mem = launchMem s.cfg
  /-- The pc is a multiple of 4 (R28). -/
  aligned : s.pc.toNat % 4 = 0
  /-- The pc never goes back, and never wraps (R28). -/
  forward : s.cfg.entry.toNat ≤ s.pc.toNat
  /-- Once an instruction has completed the pc is at most `CAPACITY` (R28). -/
  bounded : s.pc = s.cfg.entry ∨ s.pc.toNat ≤ s.cfg.capacity
  /-- CR keeps its reset value (R25, D23). -/
  condition : s.cr = 0
  /-- `Exit` can only be the last request of the log (R30). -/
  exitLast : ∀ q ∈ s.hostlog.dropLast, q.isExit = false
  /-- The run has ended with `HostExit(code)` exactly when the last request is `Exit(code)` (R107, R131). -/
  exitEnds : ∀ code, s.run = .halted (.hostExit code) ↔ s.hostlog.getLast? = some (.exit code)
  /-- The key that `UnimplementedOpcode` carries is one the table has no entry for (R89, R134). -/
  unimplemented : ∀ key, s.run = .halted (.unimplementedOpcode key) →
    key ≠ 0 ∧ key.toNat % 4 = 0 ∧ opTable s.cfg.keys key = none

end Sys2Proof.Machine
end

