-- ==== Sys2Proof/Certificates/Slice0/Obligations.lean ====
section
/-! DEFINITION. The statements for the provers. Each docstring names the rule of spec/ it formalises, and the spec's
decision (92_eei_decisions.md D<n>) or the log entry it rests on. "log n" is notes/assumptions/n.md. -/

open Sys2Proof Sys2Proof.Machine

/-! ### Reset -/

/-- R35, R150 under the default configuration, the row of the opcode table included. Rests on the spec's decisions D3
(registers other than r1 are zero; log 4) and D1 (the values of the five keys, PRESUMED; log 2), and on the model's choice
of an empty image (log 5). -/
def Obligations.ResetLeavesSpecValues : Prop :=
  State.reset.pc = 0xB0 ∧ State.reset.gpr 1 = 0x500 ∧ (∀ i : RegIdx, i ≠ 1 → State.reset.reg i = 0)
  ∧ State.reset.run = .running ∧ State.reset.hostlog = [] ∧ State.reset.cfg.capacity = 262144
  ∧ State.reset.cfg.keys = defaultKeys
  ∧ ∀ a, a < 262144 → State.reset.memRead1 a = .ok 0

/-- R35, R150 for every well-formed launch. Rests on the spec's decisions D3 (log 4) and D13 (length of the image). -/
def Obligations.LaunchLeavesSpecValues : Prop :=
  ∀ c : Config, c.wellFormed = true →
    (State.launch c).pc = c.entry ∧ (State.launch c).gpr 1 = c.stackInit
    ∧ (∀ i : RegIdx, i ≠ 1 → (State.launch c).reg i = 0)
    ∧ (State.launch c).run = .running ∧ (State.launch c).hostlog = [] ∧ (State.launch c).cfg = c
    ∧ (∀ (a : Nat) (h : a < c.image.length), (State.launch c).memRead1 a = .ok c.image[a])
    ∧ (∀ a, c.image.length ≤ a → a < c.capacity → (State.launch c).memRead1 a = .ok 0)
    ∧ (∀ a, c.capacity ≤ a → (State.launch c).memRead1 a = .error .outOfBounds)

/-! ### Memory -/

/-- R41, the `load_image` operation: `bytes[i]` goes to `at_offset + i`, and every other byte stays. -/
def Obligations.LoadImageWritesEachByte : Prop :=
  ∀ (m : Memory) (bytes : List Byte) (off : Nat), m.wf →
    (∀ (i : Nat) (h : i < bytes.length), (m.load bytes off).read (off + i) = bytes[i])
    ∧ ∀ a, (a < off ∨ off + bytes.length ≤ a) → (m.load bytes off).read a = m.read a

/-- R41, the `write_byte` operation with its bounds check (R12 `MemWrite`): the byte is written, every other byte, the
registers, the pc, the run state and the log stay; a write outside memory is `OutOfBounds`. No instruction uses it
(R49). -/
def Obligations.WriteByteWritesOneByte : Prop :=
  ∀ (s : State) (a : Nat) (v : Byte), s.mem.wf →
    (s.cfg.capacity ≤ a → s.memWrite1 a v = .error .outOfBounds)
    ∧ (a < s.cfg.capacity → ∃ t, s.memWrite1 a v = .ok t ∧ t.mem.wf ∧ t.memRead1 a = .ok v
        ∧ (∀ b, b ≠ a → t.memRead1 b = s.memRead1 b)
        ∧ t.regs = s.regs ∧ t.pc = s.pc ∧ t.run = s.run ∧ t.hostlog = s.hostlog ∧ t.cfg = s.cfg)

/-- R44. -/
def Obligations.ByteReadIsBoundsChecked : Prop :=
  ∀ (s : State) (a : Nat),
    (s.cfg.capacity ≤ a → s.memRead1 a = .error .outOfBounds)
    ∧ (a < s.cfg.capacity → s.memRead1 a = .ok (s.mem.read a))

/-- R45: the bounds check, the big-endian value, and the document's example. -/
def Obligations.WordReadIsBigEndian : Prop :=
  ∀ (s : State) (a : Nat),
    (s.cfg.capacity ≤ a + 3 → s.memRead4 a = .error .outOfBounds)
    ∧ (a + 3 < s.cfg.capacity → ∃ w, s.memRead4 a = .ok w ∧
        w.toNat = (s.mem.read a).toNat * 2 ^ 24 + (s.mem.read (a + 1)).toNat * 2 ^ 16
          + (s.mem.read (a + 2)).toNat * 2 ^ 8 + (s.mem.read (a + 3)).toNat)
    ∧ (a + 3 < s.cfg.capacity → s.mem.read a = 0x3C → s.mem.read (a + 1) = 0x20 → s.mem.read (a + 2) = 0x00 →
        s.mem.read (a + 3) = 0x05 → s.memRead4 a = .ok 0x3C200005)

/-- R46. Rests on the spec's decision D8 (log 12). -/
def Obligations.BufferReadIsCheckedWhole : Prop :=
  ∀ (s : State) (a len : Nat),
    (0 < len → s.cfg.capacity < a + len → s.memBytes a len = .error .outOfBounds)
    ∧ (len = 0 → s.memBytes a len = .ok [])
    ∧ (a + len ≤ s.cfg.capacity → ∃ bytes, s.memBytes a len = .ok bytes ∧ bytes.length = len
        ∧ ∀ i, i < len → bytes[i]? = some (s.mem.read (a + i)))

/-- R80: the fetch at `pc + byte_offset`, at any alignment, with no mask and no wrap. Rests on the spec's decisions D12
(exact sums; log 9) and D20 (natural offsets; log 23). -/
def Obligations.FetchReadsWordAtOffset : Prop :=
  ∀ (s : State) (pc off : Nat),
    (s.cfg.capacity ≤ pc + off + 3 → s.fetchWord pc off = .error .outOfBounds)
    ∧ (pc + off + 3 < s.cfg.capacity → ∃ w, s.fetchWord pc off = .ok w ∧
        wordBytes w = [s.mem.read (pc + off), s.mem.read (pc + off + 1), s.mem.read (pc + off + 2),
          s.mem.read (pc + off + 3)])

/-- R43, R51, R97, R105: the two masked addresses as numbers. The `lwz` mask drops bits 31 to 28 of the base and keeps
a carry out of it; the `sc` mask also drops bits 19 to 16. Rests on the spec's decision D12 (log 9). -/
def Obligations.MaskedAddressesAsNumbers : Prop :=
  ∀ (s : State) (fb : GprIdx) (imm : BitVec 16),
    lwzAddress s fb imm = (s.gpr fb).toNat % 2 ^ 28 + imm.toNat
    ∧ scStart s = (s.gpr 4).toNat / 2 ^ 20 % 2 ^ 8 * 2 ^ 20 + (s.gpr 4).toNat % 2 ^ 16

/-! ### Registers -/

/-- R24: the contract of the register file on any index. The general registers and the special registers are the cells
of one array (R20). -/
def Obligations.RegisterFileContract : Prop :=
  ∀ (s : State) (i : Nat) (v : Word),
    (36 ≤ i → s.readIndex i = .error .outOfBounds ∧ s.writeIndex i v = .error .outOfBounds)
    ∧ (i < 36 → ∃ t, s.writeIndex i v = .ok t ∧ t.readIndex i = .ok v
        ∧ (∀ j, j ≠ i → t.readIndex j = s.readIndex j)
        ∧ t.pc = s.pc ∧ t.mem = s.mem ∧ t.run = s.run ∧ t.hostlog = s.hostlog ∧ t.cfg = s.cfg)
    ∧ (∀ r : GprIdx, s.readIndex r.val = .ok (s.gpr r))
    ∧ s.readIndex 32 = .ok s.cr ∧ s.readIndex 33 = .ok s.lr ∧ s.readIndex 34 = .ok s.ctr ∧ s.readIndex 35 = .ok s.xer

/-! ### Encoding -/

/-- R60 to R65: the fields of a word as numbers. `SEL` rests on the spec's decision D2 (log 3). -/
def Obligations.FieldsOfWordAsNumbers : Prop :=
  ∀ w : Word,
    (fieldPO w).toNat = w.toNat / 2 ^ 26
    ∧ (opKey w).toNat = 4 * (w.toNat / 2 ^ 26)
    ∧ (fieldFA w).val = w.toNat / 2 ^ 21 % 32
    ∧ (fieldFB w).val = w.toNat / 2 ^ 16 % 32
    ∧ (fieldIMM w).toNat = w.toNat % 65536
    ∧ (fieldSEL w).toNat = w.toNat % 2 ^ 21

/-- R83: over any opcode table the halt test comes first, then the table; a word is refused with the key that was looked
up; and no bit below bit 26 plays a part in the choice. -/
def Obligations.DispatchLooksAtKeyAlone : Prop :=
  ∀ (table : Byte → Option Handler) (w : Word),
    ((w >>> 24) &&& 0xFC#32 = 0 → decodeWith table w = .ok .halt)
    ∧ ((w >>> 24) &&& 0xFC#32 ≠ 0 → table (((w >>> 24) &&& 0xFC#32).setWidth 8) = none →
        decodeWith table w = .error (.unimplementedOpcode (((w >>> 24) &&& 0xFC#32).setWidth 8)))
    ∧ (∀ h, (w >>> 24) &&& 0xFC#32 ≠ 0 → table (((w >>> 24) &&& 0xFC#32).setWidth 8) = some h →
        decodeWith table w = .ok (decodeOperands h w))
    ∧ ∀ w' : Word, w'.toNat / 2 ^ 26 = w.toNat / 2 ^ 26 → opKey w' = opKey w

/-- R67, R69: what every one of the 2^32 words is, by its primary opcode, under this hardware's keys. Rests on the spec's
decisions D1 (the five keys; log 2), D2 (the selector; log 3) and D10 (the key carried; log 14). -/
def Obligations.EveryWordIsClassified : Prop :=
  ∀ w : Word,
    let po := w.toNat / 2 ^ 26
    decode defaultKeys w =
      if po = 0 then .ok .halt
      else if po = 14 then .ok (.addi (fieldFA w) (fieldFB w) (fieldIMM w))
      else if po = 15 then .ok (.lis (fieldFA w) (fieldIMM w))
      else if po = 17 then .ok .sc
      else if po = 31 then .ok (.mtspr (fieldFA w) (fieldSEL w))
      else if po = 32 then .ok (.lwz (fieldFA w) (fieldFB w) (fieldIMM w))
      else .error (.unimplementedOpcode (BitVec.ofNat 8 (4 * po)))

/-- R70: decoding the canonical word of any instruction gives it back, under every well-formed key map (R9 leaves the
keys as parameters), and the same through the bytes that memory holds. -/
def Obligations.DecodeOfEncodeIsIdentity : Prop :=
  ∀ (k : OpKeys) (i : Instr) (rest : List Byte), k.wellFormed = true →
    decode k (encode k i) = .ok i ∧ decodeBytes k (encodeBytes k i ++ rest) = .ok (i, rest)

/-- R68, R70: a word that decodes is the canonical word of its instruction but for the bits the handler ignores. -/
def Obligations.EncodeOfDecodeClearsIgnoredBits : Prop :=
  ∀ (k : OpKeys) (w : Word) (i : Instr), k.wellFormed = true → decode k w = .ok i → encode k i = w &&& usedBits i

/-- R68: words that differ in ignored bits alone are the same instruction. -/
def Obligations.IgnoredBitsDoNotMatter : Prop :=
  ∀ (k : OpKeys) (w w' : Word) (i : Instr), decode k w = .ok i → w' &&& usedBits i = w &&& usedBits i →
    decode k w' = .ok i

/-- R69, R84: exactly the 58 keys that are multiples of 4 other than 0x00, 0x38, 0x3C, 0x44, 0x7C, 0x80 have no handler
and no halt. Rests on the spec's decision D1 (log 2). -/
def Obligations.FiftyEightKeysAreUnimplemented : Prop :=
  (∀ w : Word, (∃ key, decode defaultKeys w = .error (.unimplementedOpcode key)) ↔
    w.toNat / 2 ^ 26 ∉ [0, 14, 15, 17, 31, 32])
  ∧ ((List.range 64).filter (fun po => po ∉ [0, 14, 15, 17, 31, 32])).length = 58

/-- Words written out from the encoding of each row and the spec's own vectors (30_encoding.md section 4,
95_test_vectors.md). Rests on the spec's decision D1 (log 2). -/
def Obligations.WrittenWordsDecode : Prop :=
  decode defaultKeys 0x00000000 = .ok .halt ∧ decode defaultKeys 0x03FFFFFF = .ok .halt
  ∧ decode defaultKeys 0x3CA01234 = .ok (.lis 5 0x1234) ∧ decode defaultKeys 0x3FE08000 = .ok (.lis 31 0x8000)
  ∧ decode defaultKeys 0x3864000A = .ok (.addi 3 4 10) ∧ decode defaultKeys 0x80460008 = .ok (.lwz 2 6 8)
  ∧ decode defaultKeys 0x7CC01001 = .ok (.mtspr 6 0x1001) ∧ decode defaultKeys 0x7CC11001 = .ok (.mtspr 6 0x11001)
  ∧ decode defaultKeys 0x44000002 = .ok .sc
  ∧ decode defaultKeys 0x4B123456 = .error (.unimplementedOpcode 0x48)

/-- R72: the expansions of the pseudo-instructions under this hardware's keys, for every register and immediate. Rests on
the spec's decisions D1 (log 2), D2 (log 3) and D16 (names; log 24). -/
def Obligations.PseudoInstructionExpansions : Prop :=
  (∀ a imm, a < 32 → imm < 65536 →
    (assemble defaultKeys (.li a imm)).map BitVec.toNat = some (0x38000000 + a * 2 ^ 21 + imm))
  ∧ (∀ a, a < 32 →
      (assemble defaultKeys (.mtctr a)).map BitVec.toNat = some (0x7C001001 + a * 2 ^ 21)
      ∧ (assemble defaultKeys (.mtlr a)).map BitVec.toNat = some (0x7C001000 + a * 2 ^ 21)
      ∧ (assemble defaultKeys (.mtxer a)).map BitVec.toNat = some (0x7C000001 + a * 2 ^ 21))
  ∧ assemble defaultKeys .nop = some 0x7C000000

/-! ### The step -/

/-- R115: when the word at the pc decodes to an instruction, a running machine's step is that instruction's meaning and
nothing else. Every instruction is well formed by its type. -/
def Obligations.StepRunsDecodedInstruction : Prop :=
  ∀ (s : State) (w : Word) (i : Instr), s.run = .running → s.fetchWord s.pc.toNat 0 = .ok w →
    decode s.cfg.keys w = .ok i → step s = exec i s

/-- R45, R70, R115: when memory holds the canonical bytes of an instruction at the pc, big-endian, the step runs that
instruction. -/
def Obligations.StepRunsEncodedInstruction : Prop :=
  ∀ (s : State) (i : Instr), s.run = .running → s.cfg.keys.wellFormed = true → s.pc.toNat + 3 < s.cfg.capacity →
    [s.mem.read s.pc.toNat, s.mem.read (s.pc.toNat + 1), s.mem.read (s.pc.toNat + 2), s.mem.read (s.pc.toNat + 3)]
      = encodeBytes s.cfg.keys i →
    step s = exec i s

/-- R88: every word below 0x04000000, and no other, ends the run with `EndOfProgram`; nothing else changes, and the pc
keeps the address of the halting word. -/
def Obligations.HaltWordEndsRun : Prop :=
  ∀ (s : State) (w : Word), s.run = .running → s.fetchWord s.pc.toNat 0 = .ok w →
    (w.toNat < 0x04000000 → step s = .next { s with run := .halted .endOfProgram })
    ∧ (0x04000000 ≤ w.toNat → ∀ t, step s = .next t → t.run ≠ .halted .endOfProgram)

/-- R89, R134: a key with no handler ends the run with `UnimplementedOpcode(KEY)`; nothing else changes. Rests on the
spec's decision D10 (log 14). -/
def Obligations.UnregisteredKeyEndsRun : Prop :=
  ∀ (s : State) (w : Word), s.run = .running → s.fetchWord s.pc.toNat 0 = .ok w → 0x04000000 ≤ w.toNat →
    (∀ b ∈ s.cfg.keys.toList, b.toNat ≠ 4 * (w.toNat / 2 ^ 26)) →
    step s = .next { s with run := .halted (.unimplementedOpcode (BitVec.ofNat 8 (4 * (w.toNat / 2 ^ 26)))) }

/-- R116: a step at a pc whose word does not lie in memory ends the run with `OutOfBounds`; nothing else changes. Rests
on the spec's decisions D11 and D12 (logs 15, 9). -/
def Obligations.PcOutsideMemoryEndsRun : Prop :=
  ∀ s : State, s.run = .running → s.cfg.capacity ≤ s.pc.toNat + 3 →
    step s = .next { s with run := .halted .outOfBounds }

/-- R118, R139: a halted state has no step. That step then answers the fault `halted` is the model's choice (log 6). -/
def Obligations.HaltedStateHasNoStep : Prop :=
  ∀ (s : State) (reason : HaltReason), s.run = .halted reason → step s = .fault (.halted reason)

/-- R145: a running machine can always step; a halted one never can again. -/
def Obligations.RunningAlwaysSteps : Prop :=
  ∀ s : State, (s.run = .running → ∃ t, step s = .next t)
    ∧ ∀ reason, s.run = .halted reason → ∀ t, step s ≠ .next t

/-! ### The instructions: what each does where it completes -/

/-- R88: the meaning of `halt`. -/
def Obligations.HaltResult : Prop :=
  ∀ s : State, exec .halt s = .next { s with run := .halted .endOfProgram }

/-- R95: the meaning of `lis`: `IMM` in the high half and zeros in the low half, whatever its sign; nothing else but the
pc changes. -/
def Obligations.LisResult : Prop :=
  ∀ (s : State) (fa : GprIdx) (imm : BitVec 16),
    exec (.lis fa imm) s
      = .next { s with regs := s.regs.set fa.val (BitVec.ofNat 32 (imm.toNat * 65536)), pc := s.pc + 4 }

/-- R96, R98: the meaning of `addi`: the load-immediate form when the FIELD is 0, else the sum modulo 2^32 with the
immediate zero-extended; nothing else but the pc changes. Rests on the spec's decision D6 (log 10). -/
def Obligations.AddiResult : Prop :=
  ∀ (s : State) (fa fb : GprIdx) (imm : BitVec 16),
    exec (.addi fa fb imm) s
      = .next { s with
          regs := s.regs.set fa.val
            (BitVec.ofNat 32 (if fb.val = 0 then imm.toNat else (s.gpr fb).toNat + imm.toNat)),
          pc := s.pc + 4 }

/-- R97: the meaning of `lwz` where its byte lies in memory: ONE byte, zero-extended, from the masked base (register 0
included) plus the unsigned displacement; nothing else but the pc changes. Rests on the spec's decision D12 (log 9). -/
def Obligations.LwzResult : Prop :=
  ∀ (s : State) (fa fb : GprIdx) (imm : BitVec 16),
    (s.gpr fb).toNat % 2 ^ 28 + imm.toNat < s.cfg.capacity →
    exec (.lwz fa fb imm) s
      = .next { s with
          regs := s.regs.set fa.val
            (BitVec.ofNat 32 (s.mem.read ((s.gpr fb).toNat % 2 ^ 28 + imm.toNat)).toNat),
          pc := s.pc + 4 }

/-- R97, R131, R133: where the byte lies outside memory `lwz` raises `OutOfBounds` and writes nothing else. Rests on the
spec's decisions D7 and D12 (logs 11, 9). -/
def Obligations.LwzOutsideMemory : Prop :=
  ∀ (s : State) (fa fb : GprIdx) (imm : BitVec 16),
    s.cfg.capacity ≤ (s.gpr fb).toNat % 2 ^ 28 + imm.toNat →
    exec (.lwz fa fb imm) s = .next { s with run := .halted .outOfBounds }

/-- R100: the meaning of `mtspr` for each listed selector and for any other. -/
def Obligations.MtsprResult : Prop :=
  ∀ (s : State) (fa : GprIdx) (sel : BitVec 21),
    (sel = 0x001001 → exec (.mtspr fa sel) s = .next { s with regs := s.regs.set 34 (s.gpr fa), pc := s.pc + 4 })
    ∧ (sel = 0x001000 → exec (.mtspr fa sel) s = .next { s with regs := s.regs.set 33 (s.gpr fa), pc := s.pc + 4 })
    ∧ (sel = 0x000001 → exec (.mtspr fa sel) s = .next { s with regs := s.regs.set 35 (s.gpr fa), pc := s.pc + 4 })
    ∧ (sel.toNat ∉ [0x1001, 0x1000, 0x0001] → exec (.mtspr fa sel) s = .next { s with pc := s.pc + 4 })

/-- R65, R100: a word whose key is that of `mtspr` and whose field `FB` is not 0 is a no-op that advances the pc. Rests on
the spec's decisions D1 (log 2) and D2 (log 3). -/
def Obligations.MtsprWithBFieldIsNoOp : Prop :=
  ∀ (s : State) (w : Word), s.run = .running → s.cfg.keys = defaultKeys → s.fetchWord s.pc.toNat 0 = .ok w →
    w.toNat / 2 ^ 26 = 31 → w.toNat / 2 ^ 16 % 32 ≠ 0 → step s = .next { s with pc := s.pc + 4 }

/-- R105, R106, R109: the write call of `sc` where its buffer lies in memory or is empty: the bytes at ascending addresses
from the masked start are logged with the signed descriptor, and nothing else but the pc changes. Rests on the spec's
decisions D8, D9 and D12 (logs 12, 13, 9). -/
def Obligations.ScWriteResult : Prop :=
  ∀ (s : State) (start len : Nat), s.gpr 0 = 4 →
    start = (s.gpr 4).toNat / 2 ^ 20 % 2 ^ 8 * 2 ^ 20 + (s.gpr 4).toNat % 2 ^ 16 → len = (s.gpr 5).toNat →
    (len = 0 ∨ start + len ≤ s.cfg.capacity) →
    exec .sc s
      = .next { s with
          hostlog := s.hostlog ++
            [.write (if (s.gpr 3).toNat < 2 ^ 31 then (s.gpr 3).toNat else (s.gpr 3).toNat - 2 ^ 32 : Int)
              ((List.range len).map fun i => s.mem.read (start + i))],
          pc := s.pc + 4 }

/-- R106, R131, R133: where the buffer leaves memory the write call raises `OutOfBounds`, logs nothing and changes nothing
else. Rests on the spec's decisions D7, D8 and D12 (logs 11, 12, 9). -/
def Obligations.ScWriteOutsideMemory : Prop :=
  ∀ (s : State) (start len : Nat), s.gpr 0 = 4 →
    start = (s.gpr 4).toNat / 2 ^ 20 % 2 ^ 8 * 2 ^ 20 + (s.gpr 4).toNat % 2 ^ 16 → len = (s.gpr 5).toNat →
    0 < len → s.cfg.capacity < start + len →
    exec .sc s = .next { s with run := .halted .outOfBounds }

/-- R105, R107, R109: the exit call of `sc` logs `Exit(code)` and ends the run with `HostExit(code)`; the pc is not
advanced. Rests on the spec's decisions D9 and D22 (log 13). -/
def Obligations.ScExitResult : Prop :=
  ∀ (s : State) (code : Int), s.gpr 0 = 1 →
    code = (if (s.gpr 3).toNat < 2 ^ 31 then (s.gpr 3).toNat else (s.gpr 3).toNat - 2 ^ 32 : Int) →
    exec .sc s = .next { s with hostlog := s.hostlog ++ [.exit code], run := .halted (.hostExit code) }

/-- R110: every call number but 4 and 1 is a no-op that advances the pc, the number being the whole register; and `sc` is
the only instruction that reaches the host. -/
def Obligations.ScOtherNumberIsNoOp : Prop :=
  (∀ s : State, (s.gpr 0).toNat ≠ 4 → (s.gpr 0).toNat ≠ 1 → exec .sc s = .next { s with pc := s.pc + 4 })
  ∧ ∀ (i : Instr) (s t : State), exec i s = .next t → i ≠ .sc → t.hostlog = s.hostlog

/-! ### The instructions: what each leaves unchanged -/

/-- The frame of the instructions that write a general register, `addi`, `lis` and `lwz` (R95 to R97, R25): every other
register, the special ones included, every byte of memory, the host log and the configuration are unchanged; the run
state is too unless `lwz` raised `OutOfBounds`, and then no register changed at all. -/
def Obligations.GeneralRegisterWritersFrame : Prop :=
  ∀ (fa fb : GprIdx) (imm : BitVec 16) (i : Instr), i ∈ [Instr.addi fa fb imm, .lis fa imm, .lwz fa fb imm] →
    ∀ s t : State, exec i s = .next t →
      (∀ r : RegIdx, r.val ≠ fa.val → t.reg r = s.reg r)
      ∧ (∀ a, t.memRead1 a = s.memRead1 a) ∧ t.hostlog = s.hostlog ∧ t.cfg = s.cfg
      ∧ (t.run = s.run ∨ (i = .lwz fa fb imm ∧ t.run = .halted .outOfBounds ∧ ∀ r : RegIdx, t.reg r = s.reg r))

/-- The frame of `mtspr` (R100): every general register, CR, every special register its selector does not name, every
byte of memory, the host log, the run state and the configuration are unchanged. -/
def Obligations.SpecialMoveFrame : Prop :=
  ∀ (fa : GprIdx) (sel : BitVec 21) (s t : State), exec (.mtspr fa sel) s = .next t →
    (∀ r : GprIdx, t.gpr r = s.gpr r) ∧ t.cr = s.cr
    ∧ (sel ≠ 0x001000 → t.lr = s.lr) ∧ (sel ≠ 0x001001 → t.ctr = s.ctr) ∧ (sel ≠ 0x000001 → t.xer = s.xer)
    ∧ (∀ a, t.memRead1 a = s.memRead1 a) ∧ t.hostlog = s.hostlog ∧ t.run = s.run ∧ t.cfg = s.cfg

/-- The frame of `sc` and `halt` (R88, R105): no register, no byte of memory and no part of the configuration changes;
`halt` leaves the log and the pc too, and `sc` only ever appends at most one request to the log. -/
def Obligations.SystemInstructionsFrame : Prop :=
  ∀ (i : Instr) (s t : State), i = .sc ∨ i = .halt → exec i s = .next t →
    (∀ r : RegIdx, t.reg r = s.reg r) ∧ (∀ a, t.memRead1 a = s.memRead1 a) ∧ t.cfg = s.cfg
    ∧ (i = .halt → t.hostlog = s.hostlog ∧ t.pc = s.pc)
    ∧ (t.hostlog = s.hostlog ∨ ∃ q, t.hostlog = s.hostlog ++ [q])

/-! ### The whole machine -/

/-- R27: a handler that completes advances the pc by exactly 4; the only other outcomes are the halt opcode, the exit call
of `sc` and `OutOfBounds`, and in all three the pc keeps the address of the instruction. -/
def Obligations.PcAdvancesByFourOrStays : Prop :=
  ∀ (i : Instr) (s t : State), exec i s = .next t →
    (t.pc = s.pc + 4 ∧ t.run = s.run)
    ∨ (t.pc = s.pc ∧ ((i = .halt ∧ t.run = .halted .endOfProgram)
        ∨ (i = .sc ∧ ∃ code, t.run = .halted (.hostExit code))
        ∨ t.run = .halted .outOfBounds))

/-- R131: a step that ends the run changes nothing but the run state, and the log by `Exit(code)` for `HostExit(code)`
alone. Rests on the spec's decision D7 (log 11). -/
def Obligations.ConditionsArePrecise : Prop :=
  ∀ (s t : State) (reason : HaltReason), step s = .next t → t.run = .halted reason →
    t.regs = s.regs ∧ t.pc = s.pc ∧ t.mem = s.mem ∧ t.cfg = s.cfg
    ∧ ((∃ code, reason = .hostExit code ∧ t.hostlog = s.hostlog ++ [.exit code])
      ∨ ((∀ code, reason ≠ .hostExit code) ∧ t.hostlog = s.hostlog))

/-- R133: the causes of `OutOfBounds`, all of them and no other. Rests on the spec's decisions D8 and D12 (logs 12, 9). -/
def Obligations.OutOfBoundsHasTheseCausesAlone : Prop :=
  ∀ s t : State, step s = .next t →
    (t.run = .halted .outOfBounds ↔
      s.cfg.capacity ≤ s.pc.toNat + 3
      ∨ (∃ fa fb imm, s.fetchInstr = .ok (.lwz fa fb imm) ∧ s.cfg.capacity ≤ (s.gpr fb).toNat % 2 ^ 28 + imm.toNat)
      ∨ (s.fetchInstr = .ok .sc ∧ (s.gpr 0).toNat = 4 ∧ 0 < (s.gpr 5).toNat
          ∧ s.cfg.capacity < (s.gpr 4).toNat / 2 ^ 20 % 2 ^ 8 * 2 ^ 20 + (s.gpr 4).toNat % 2 ^ 16 + (s.gpr 5).toNat))

/-- R95, R96, R100, R118, R133: a step ends in a fault (`OutOfBounds` or `UnimplementedOpcode`) only when no instruction
could be fetched and decoded, or by a `lwz`, or by the write call of `sc`. -/
def Obligations.FaultsComeFromFetchLoadOrWriteAlone : Prop :=
  ∀ (s t : State) (reason : HaltReason), step s = .next t → t.run = .halted reason → reason.isFault = true →
    (∀ i, s.fetchInstr ≠ .ok i) ∨ (∃ fa fb imm, s.fetchInstr = .ok (.lwz fa fb imm))
    ∨ (s.fetchInstr = .ok .sc ∧ s.gpr 0 = 4)

/-- R49, R31: no step changes memory or the configuration. -/
def Obligations.StepKeepsMemoryAndConfiguration : Prop :=
  ∀ s t : State, step s = .next t → t.mem = s.mem ∧ t.cfg = s.cfg

/-- R30: a step leaves the host log or appends one request to it, and only `sc` appends. -/
def Obligations.OnlySystemCallsExtendLog : Prop :=
  ∀ s t : State, step s = .next t → t.hostlog = s.hostlog
    ∨ (s.fetchInstr = .ok .sc ∧ ∃ q, t.hostlog = s.hostlog ++ [q])

/-- R23, R25: no step changes CR, and a step changes LR, CTR or XER only by the `mtspr` whose selector names it, with the
value of its source register. -/
def Obligations.SpecialRegistersChangeByMtsprAlone : Prop :=
  ∀ s t : State, step s = .next t →
    t.cr = s.cr
    ∧ (t.lr = s.lr ∨ ∃ fa, s.fetchInstr = .ok (.mtspr fa 0x1000) ∧ t.lr = s.gpr fa)
    ∧ (t.ctr = s.ctr ∨ ∃ fa, s.fetchInstr = .ok (.mtspr fa 0x1001) ∧ t.ctr = s.gpr fa)
    ∧ (t.xer = s.xer ∨ ∃ fa, s.fetchInstr = .ok (.mtspr fa 0x0001) ∧ t.xer = s.gpr fa)

/-- R23, R103: the special registers never influence a run: from two states that agree on everything else, as many steps
give states that agree on everything else, and the run ends at the same step for the same reason. -/
def Obligations.SpecialRegistersNeverInfluenceRun : Prop :=
  ∀ (k : Nat) (s s' : State), s.SameButSpecial s' →
    (∀ t, runSteps k s = .next t →
      ∃ t', runSteps k s' = .next t' ∧ State.SameButSpecial t t')
    ∧ (∀ f, runSteps k s = .fault f → runSteps k s' = .fault f)

/-- R25, R28, R30, R49, R53: every step keeps the invariant of a run that starts with a well-formed launch, from every
state that has it. Rests on the spec's decisions D3 (CR is 0 at reset), D5 (an aligned entry), D10 (the key carried) and
D22 (the exit call). -/
def Obligations.StepKeepsInvariant : Prop :=
  ∀ s t : State, s.Inv → step s = .next t → t.Inv

/-- R35, R150: every well-formed launch has the invariant. -/
def Obligations.LaunchMeetsInvariant : Prop :=
  ∀ c : Config, c.wellFormed = true → (State.launch c).Inv

/-- R35: the reset state has the invariant, under the default configuration. -/
def Obligations.ResetMeetsInvariant : Prop :=
  State.reset.Inv

/-- In every state that has the invariant, memory holds the image and then zeros (R40, R50, R53), and its list of cells is
in canonical form with no listed address at or beyond `CAPACITY`. The canonical form, the bound on listed addresses and the
zero that the list gives beyond `CAPACITY`, where the checked reads are `OutOfBounds`, are the model's representation and
no rule of the spec (DESIGN CHOICE, log 19). -/
def Obligations.InvariantFixesMemory : Prop :=
  ∀ s : State, s.Inv → s.mem.wf ∧ s.mem.within s.cfg.capacity
    ∧ (∀ (a : Nat) (h : a < s.cfg.image.length), s.memRead1 a = .ok s.cfg.image[a])
    ∧ ∀ a, s.cfg.image.length ≤ a → s.mem.read a = 0

/-- R119: from every running state, whatever its registers, memory and host log, the run ends within
`floor((CAPACITY - pc) / 4) + 1` steps, the halting step counted (in one step when the pc is outside memory); a run that
has ended so has no further step. The premise is R5's bound on `CAPACITY`. -/
def Obligations.EveryRunEnds : Prop :=
  ∀ s : State, s.run = .running → s.cfg.capacity ≤ 2 ^ 32 - 1 →
    ∃ k t, k ≤ (s.cfg.capacity - s.pc.toNat) / 4 + 1 ∧ runSteps k s = .next t ∧ t.ended
      ∧ ∀ t', step t ≠ .next t'

/-! ### The assembler's plain lines -/

/-- R70, R71: the words of the plain assembler lines under this hardware's keys, for every register, immediate and
selector in range (`B` not 0 in the add form of `addi`). Rests on the spec's decisions D1 (log 2), D2 (the selector;
log 3) and D16 (names; log 24). -/
def Obligations.PlainAssemblerLinesAsWords : Prop :=
  assemble defaultKeys .halt = some 0x00000000 ∧ assemble defaultKeys .sc = some 0x44000000
  ∧ (∀ a imm, a < 32 → imm < 65536 →
      (assemble defaultKeys (.lis a imm)).map BitVec.toNat = some (0x3C000000 + a * 2 ^ 21 + imm))
  ∧ (∀ a b imm, a < 32 → b < 32 → b ≠ 0 → imm < 65536 →
      (assemble defaultKeys (.addi a b imm)).map BitVec.toNat = some (0x38000000 + a * 2 ^ 21 + b * 2 ^ 16 + imm))
  ∧ (∀ a imm b, a < 32 → imm < 65536 → b < 32 →
      (assemble defaultKeys (.lwz a imm b)).map BitVec.toNat = some (0x80000000 + a * 2 ^ 21 + b * 2 ^ 16 + imm))
  ∧ (∀ sel a, sel < 2 ^ 21 → a < 32 →
      (assemble defaultKeys (.mtspr sel a)).map BitVec.toNat = some (0x7C000000 + a * 2 ^ 21 + sel))

/-- R70, R71: the operand ranges of assembler lines, under every key map: a line, plain or pseudo, stands for no word
exactly when an operand is out of range, or `B` is 0 in the add form of `addi`. The ranges are the spec's (its decision
D16 for the syntax; log 24); that a line out of range is answered with no word is the model's choice (log 27). -/
def Obligations.AssemblerRefusesLinesOutOfRange : Prop :=
  ∀ (k : OpKeys) (a b imm sel : Nat),
    assemble k .halt ≠ none ∧ assemble k .sc ≠ none ∧ assemble k .nop ≠ none
    ∧ (assemble k (.lis a imm) = none ↔ 32 ≤ a ∨ 65536 ≤ imm)
    ∧ (assemble k (.addi a b imm) = none ↔ 32 ≤ a ∨ 32 ≤ b ∨ b = 0 ∨ 65536 ≤ imm)
    ∧ (assemble k (.li a imm) = none ↔ 32 ≤ a ∨ 65536 ≤ imm)
    ∧ (assemble k (.lwz a imm b) = none ↔ 32 ≤ a ∨ 65536 ≤ imm ∨ 32 ≤ b)
    ∧ (assemble k (.mtspr sel a) = none ↔ 2 ^ 21 ≤ sel ∨ 32 ≤ a)
    ∧ (assemble k (.mtctr a) = none ↔ 32 ≤ a) ∧ (assemble k (.mtlr a) = none ↔ 32 ≤ a)
    ∧ (assemble k (.mtxer a) = none ↔ 32 ≤ a)
end

