-- ==== Sys2Proof/Laws/Encode.lean ====
section
/-! SUPPORT. What the fields of an encoded word are (spec/30_encoding.md rules R61 to R65, R70), and the byte order of a
word. -/

namespace Sys2Proof

@[simp] theorem gprOfField_fieldOfGpr (r : GprIdx) : gprOfField (fieldOfGpr r) = r := by
  have := r.isLt
  simp only [gprOfField, fieldOfGpr, Fin.ext_iff, BitVec.toNat_ofNat]
  omega

@[simp] theorem fieldOfGpr_gprOfField (f : BitVec 5) : fieldOfGpr (gprOfField f) = f := by
  simp [gprOfField, fieldOfGpr]

/-- A key that is a multiple of 4 has its two low bits clear. -/
theorem low_bits_of_key {key : Byte} (h : key.toNat % 4 = 0) : key[0] = false ∧ key[1] = false := by
  constructor <;>
  · simp [BitVec.getElem_eq_testBit_toNat, Nat.testBit, Nat.shiftRight_eq_div_pow, Nat.one_and_eq_mod_two]
    omega

/-! ### The fields of `enc` -/

section

variable {key : Byte} (h : key.toNat % 4 = 0) (fa fb : GprIdx) (imm : BitVec 16) (sel : BitVec 21)
include h

theorem opKey_enc : opKey (enc key fa fb imm) = key := by
  obtain ⟨h0, h1⟩ := low_bits_of_key h
  apply BitVec.eq_of_getLsbD_eq
  intro i hi
  simp only [opKey, enc, BitVec.getLsbD_setWidth, BitVec.getLsbD_and, BitVec.getLsbD_or, BitVec.getLsbD_ushiftRight,
    BitVec.getLsbD_shiftLeft]
  interval_cases i <;> simp [h0, h1]

theorem opKey_encSel : opKey (encSel key fa sel) = key := by
  obtain ⟨h0, h1⟩ := low_bits_of_key h
  apply BitVec.eq_of_getLsbD_eq
  intro i hi
  simp only [opKey, encSel, BitVec.getLsbD_setWidth, BitVec.getLsbD_and, BitVec.getLsbD_or, BitVec.getLsbD_ushiftRight,
    BitVec.getLsbD_shiftLeft]
  interval_cases i <;> simp [h0, h1]

theorem fieldFA_enc : fieldFA (enc key fa fb imm) = fa := by
  obtain ⟨h0, h1⟩ := low_bits_of_key h
  rw [fieldFA, ← gprOfField_fieldOfGpr fa]
  congr 1
  apply BitVec.eq_of_getLsbD_eq
  intro i hi
  simp only [enc, gprOfField_fieldOfGpr, BitVec.getLsbD_extractLsb', BitVec.getLsbD_setWidth, BitVec.getLsbD_or,
    BitVec.getLsbD_shiftLeft]
  interval_cases i <;> simp [h0, h1]

theorem fieldFA_encSel : fieldFA (encSel key fa sel) = fa := by
  obtain ⟨h0, h1⟩ := low_bits_of_key h
  rw [fieldFA, ← gprOfField_fieldOfGpr fa]
  congr 1
  apply BitVec.eq_of_getLsbD_eq
  intro i hi
  simp only [encSel, gprOfField_fieldOfGpr, BitVec.getLsbD_extractLsb', BitVec.getLsbD_setWidth, BitVec.getLsbD_or,
    BitVec.getLsbD_shiftLeft]
  interval_cases i <;> simp [h0, h1]

omit h

theorem fieldFB_enc : fieldFB (enc key fa fb imm) = fb := by
  rw [fieldFB, ← gprOfField_fieldOfGpr fb]
  congr 1
  apply BitVec.eq_of_getLsbD_eq
  intro i hi
  simp only [enc, gprOfField_fieldOfGpr, BitVec.getLsbD_extractLsb', BitVec.getLsbD_setWidth, BitVec.getLsbD_or,
    BitVec.getLsbD_shiftLeft]
  interval_cases i <;> simp

theorem fieldIMM_enc : fieldIMM (enc key fa fb imm) = imm := by
  apply BitVec.eq_of_getLsbD_eq
  intro i hi
  have h24 : i < 24 := by omega
  have h21 : i < 21 := by omega
  simp [fieldIMM, enc, h24, h21, hi, show i < 32 by omega]

theorem fieldSEL_encSel : fieldSEL (encSel key fa sel) = sel := by
  apply BitVec.eq_of_getLsbD_eq
  intro i hi
  have h24 : i < 24 := by omega
  simp [fieldSEL, encSel, h24, hi, show i < 32 by omega]

end

/-! ### The canonical words as numbers -/

@[simp] theorem fieldOfGpr_toNat (r : GprIdx) : (fieldOfGpr r).toNat = r.val := by
  simp [fieldOfGpr]

/-- `enc` is the disjoint union of its fields, and so their sum (R70). -/
theorem enc_toNat {key : Byte} (h : key.toNat % 4 = 0) (fa fb : GprIdx) (imm : BitVec 16) :
    (enc key fa fb imm).toNat = key.toNat * 2 ^ 24 + fa.val * 2 ^ 21 + fb.val * 2 ^ 16 + imm.toNat := by
  obtain ⟨h0, h1⟩ := low_bits_of_key h
  have happ : enc key fa fb imm = key.extractLsb' 2 6 ++ fieldOfGpr fa ++ fieldOfGpr fb ++ imm := by
    apply BitVec.eq_of_getLsbD_eq
    intro i hi
    simp only [enc, BitVec.getLsbD_setWidth, BitVec.getLsbD_or, BitVec.getLsbD_shiftLeft, BitVec.getLsbD_append,
      BitVec.getLsbD_extractLsb']
    interval_cases i <;> simp [h0, h1]
  have := (key.extractLsb' 2 6).isLt
  have := (fieldOfGpr fa).isLt
  have := (fieldOfGpr fb).isLt
  have := imm.isLt
  have := key.isLt
  rw [happ]
  simp only [BitVec.toNat_append]
  rw [← Nat.shiftLeft_add_eq_or_of_lt (by omega), ← Nat.shiftLeft_add_eq_or_of_lt (by omega),
    ← Nat.shiftLeft_add_eq_or_of_lt (by omega)]
  simp only [Nat.shiftLeft_eq, fieldOfGpr_toNat, BitVec.extractLsb'_toNat, Nat.shiftRight_eq_div_pow]
  omega

/-- The selector form is the general form with the selector cut into the fields `FB` and `IMM` (R65). -/
theorem encSel_eq_enc (key : Byte) (fa : GprIdx) (sel : BitVec 21) :
    encSel key fa sel = enc key fa (gprOfField (sel.extractLsb' 16 5)) (sel.extractLsb' 0 16) := by
  apply BitVec.eq_of_getLsbD_eq
  intro i hi
  simp only [enc, encSel, fieldOfGpr_gprOfField, BitVec.getLsbD_setWidth, BitVec.getLsbD_or, BitVec.getLsbD_shiftLeft,
    BitVec.getLsbD_extractLsb']
  interval_cases i <;> simp

theorem encSel_toNat {key : Byte} (h : key.toNat % 4 = 0) (fa : GprIdx) (sel : BitVec 21) :
    (encSel key fa sel).toNat = key.toNat * 2 ^ 24 + fa.val * 2 ^ 21 + sel.toNat := by
  have := sel.isLt
  rw [encSel_eq_enc, enc_toNat h]
  simp only [gprOfField, BitVec.extractLsb'_toNat, Nat.shiftRight_eq_div_pow]
  omega

/-! ### The assembler -/

theorem asmGpr_val {n : Nat} (h : n < 32) : (asmGpr n).val = n := by
  simp only [asmGpr, gprOfField, BitVec.toNat_ofNat]
  omega

/-- A line gives an instruction exactly when it is well formed. -/
theorem asmInstr_eq_none_iff (x : Asm) : asmInstr x = none ↔ x.wellFormed = false := by
  cases hw : x.wellFormed with
  | false => simp [asmInstr, hw]
  | true => cases x <;> simp [asmInstr, hw]

/-! ### Byte order -/

/-- The four bytes of a word compose to the word. -/
theorem composeBE_wordBytes (w : Word) :
    composeBE (w.extractLsb' 24 8) (w.extractLsb' 16 8) (w.extractLsb' 8 8) (w.extractLsb' 0 8) = w := by
  apply BitVec.eq_of_getLsbD_eq
  intro i hi
  simp only [composeBE, BitVec.getLsbD_extractLsb', BitVec.getLsbD_setWidth, BitVec.getLsbD_or, BitVec.getLsbD_shiftLeft]
  interval_cases i <;> simp

end Sys2Proof
end

