-- ==== Sys2Proof/Laws/Memory.lean ====
section
/-! SUPPORT. The laws of the memory array: reading after writing, and that every operation keeps the canonical form. -/

namespace Sys2Proof.Machine

/-- Every listed address is above `lo`. -/
def Memory.above (lo : Nat) (m : Memory) : Prop := ∀ c ∈ m, lo < c.1

theorem Memory.wf_nil : wf [] := ⟨List.Pairwise.nil, fun _ h => absurd h List.not_mem_nil⟩

theorem Memory.wf_cons_iff (b : Nat) (u : Byte) (m : Memory) :
    wf ((b, u) :: m) ↔ above b m ∧ u ≠ unlistedByte ∧ wf m := by
  simp only [wf, above, List.map_cons, List.pairwise_cons, List.mem_map, List.mem_cons]
  constructor
  · rintro ⟨⟨h1, h2⟩, h3⟩
    exact ⟨fun c hc => h1 _ ⟨c, hc, rfl⟩, h3 _ (.inl rfl), h2, fun c hc => h3 c (.inr hc)⟩
  · rintro ⟨h1, h2, h3, h4⟩
    refine ⟨⟨?_, h3⟩, ?_⟩
    · rintro a ⟨c, hc, rfl⟩
      exact h1 c hc
    · rintro c (rfl | hc)
      · exact h2
      · exact h4 c hc

/-- An address below every listed one reads as an unlisted address. -/
theorem Memory.read_below {m : Memory} {lo a : Nat} (h : above lo m) (ha : a ≤ lo) : read m a = unlistedByte := by
  induction m with
  | nil => rfl
  | cons c m ih =>
    obtain ⟨b, u⟩ := c
    have hb : lo < b := h (b, u) (by simp)
    have hne : a ≠ b := by omega
    simp only [read, hne, if_false]
    exact ih fun c hc => h c (by simp [hc])

theorem Memory.read_cons {m : Memory} {a : Nat} (v : Byte) (h : above a m) (a' : Nat) :
    read (cons a v m) a' = if a' = a then v else read m a' := by
  by_cases hv : v = unlistedByte
  · simp only [cons, hv, if_true]
    split
    · subst_vars
      exact read_below h (Nat.le_refl _)
    · rfl
  · simp [cons, hv, read]

/-- Reading after a write: the written byte at its address, the old byte everywhere else. -/
theorem Memory.read_write {m : Memory} (h : wf m) (a : Nat) (v : Byte) (a' : Nat) :
    read (write m a v) a' = if a' = a then v else read m a' := by
  induction m with
  | nil => exact read_cons v (by simp [above]) a'
  | cons c m ih =>
    obtain ⟨b, u⟩ := c
    obtain ⟨hb, hu, hm⟩ := (wf_cons_iff b u m).1 h
    simp only [write]
    split
    · rename_i hab
      refine read_cons v ?_ a'
      rintro c hc
      rcases List.mem_cons.1 hc with rfl | hc
      · exact hab
      · exact Nat.lt_trans hab (hb c hc)
    · split
      · subst_vars
        rw [read_cons v hb a']
        by_cases h' : a' = b <;> simp [h', read]
      · rename_i h1 h2
        simp only [read, ih hm]
        by_cases h3 : a' = b
        · have h4 : ¬ b = a := fun e => h2 e.symm
          simp [h3, h4]
        · simp [h3]

theorem Memory.above_write {m : Memory} {lo a : Nat} {v : Byte} (h : above lo m) (ha : lo < a) : above lo (write m a v) := by
  induction m with
  | nil =>
    intro c hc
    simp only [write, cons] at hc
    split at hc <;> simp_all
  | cons c m ih =>
    obtain ⟨b, u⟩ := c
    have hb : lo < b := h (b, u) (by simp)
    have hm : above lo m := fun c hc => h c (by simp [hc])
    intro c hc
    simp only [write, cons] at hc
    split at hc
    · split at hc
      · exact h c hc
      · rcases List.mem_cons.1 hc with rfl | hc
        · exact ha
        · exact h c hc
    · split at hc
      · split at hc
        · exact hm c hc
        · rcases List.mem_cons.1 hc with rfl | hc
          · exact ha
          · exact hm c hc
      · rcases List.mem_cons.1 hc with rfl | hc
        · exact hb
        · exact ih hm c hc

theorem Memory.wf_cons {m : Memory} {a : Nat} (v : Byte) (h : above a m) (hm : wf m) : wf (cons a v m) := by
  by_cases hv : v = unlistedByte
  · rw [cons, if_pos hv]
    exact hm
  · rw [cons, if_neg hv]
    exact (wf_cons_iff a v m).2 ⟨h, hv, hm⟩

/-- A write keeps the canonical form. -/
theorem Memory.wf_write {m : Memory} (h : wf m) (a : Nat) (v : Byte) : wf (write m a v) := by
  induction m with
  | nil => exact wf_cons v (by simp [above]) h
  | cons c m ih =>
    obtain ⟨b, u⟩ := c
    obtain ⟨hb, hu, hm⟩ := (wf_cons_iff b u m).1 h
    simp only [write]
    split
    · rename_i hab
      refine wf_cons v ?_ h
      intro c hc
      rcases List.mem_cons.1 hc with rfl | hc
      · exact hab
      · exact Nat.lt_trans hab (hb c hc)
    · split
      · subst_vars
        exact wf_cons v hb hm
      · rename_i h1 h2
        exact (wf_cons_iff b u _).2 ⟨above_write hb (by omega), hu, ih hm⟩

/-- Loading an image keeps the canonical form. -/
theorem Memory.wf_load {m : Memory} (h : wf m) (bytes : List Byte) (off : Nat) : wf (load m bytes off) := by
  induction bytes generalizing m off with
  | nil => exact h
  | cons b bs ih => exact ih (wf_write h off b) (off + 1)

theorem Memory.within_write {m : Memory} {cap a : Nat} {v : Byte} (h : within m cap) (ha : a < cap) :
    within (write m a v) cap := by
  induction m with
  | nil =>
    intro c hc
    simp only [write, cons] at hc
    split at hc <;> simp_all
  | cons c m ih =>
    obtain ⟨b, u⟩ := c
    have hm : within m cap := fun c hc => h c (by simp [hc])
    intro c hc
    simp only [write, cons] at hc
    split at hc
    · split at hc
      · exact h c hc
      · rcases List.mem_cons.1 hc with rfl | hc
        · exact ha
        · exact h c hc
    · split at hc
      · split at hc
        · exact hm c hc
        · rcases List.mem_cons.1 hc with rfl | hc
          · exact ha
          · exact hm c hc
      · rcases List.mem_cons.1 hc with rfl | hc
        · exact h (b, u) (by simp)
        · exact ih hm c hc

/-- An image that fits leaves every listed address below the capacity. -/
theorem Memory.within_load {m : Memory} {cap : Nat} {bytes : List Byte} {off : Nat} (h : within m cap)
    (ho : off + bytes.length ≤ cap) : within (load m bytes off) cap := by
  induction bytes generalizing m off with
  | nil => exact h
  | cons b bs ih =>
    rw [List.length_cons] at ho
    exact ih (within_write h (by omega)) (by omega)

/-- The memory after reset is in canonical form. -/
theorem Memory.wf_launchMem (c : Config) : wf (launchMem c) := wf_load wf_nil c.image 0

end Sys2Proof.Machine
end

