-- ==== Sys2Proof/Laws/State.lean ====
section
/-! SUPPORT. The small lemmas of the state's updates: one per field per update, and what a register read gives after a
register write. -/

namespace Sys2Proof.Machine.State

variable (s : State) (i j : RegIdx) (r r' : GprIdx) (v : Word) (q : HostRequest) (reason : HaltReason) (nbits w : Nat)

/-! ### `setReg` -/

@[simp] theorem setReg_regs : (s.setReg i v).regs = s.regs.set i v := rfl
@[simp] theorem setReg_pc : (s.setReg i v).pc = s.pc := rfl
@[simp] theorem setReg_mem : (s.setReg i v).mem = s.mem := rfl
@[simp] theorem setReg_run : (s.setReg i v).run = s.run := rfl
@[simp] theorem setReg_hostlog : (s.setReg i v).hostlog = s.hostlog := rfl
@[simp] theorem setReg_cfg : (s.setReg i v).cfg = s.cfg := rfl

/-! ### `setGpr` -/

@[simp] theorem setGpr_regs : (s.setGpr r v).regs = s.regs.set (gprIndex r) v := rfl
@[simp] theorem setGpr_pc : (s.setGpr r v).pc = s.pc := rfl
@[simp] theorem setGpr_mem : (s.setGpr r v).mem = s.mem := rfl
@[simp] theorem setGpr_run : (s.setGpr r v).run = s.run := rfl
@[simp] theorem setGpr_hostlog : (s.setGpr r v).hostlog = s.hostlog := rfl
@[simp] theorem setGpr_cfg : (s.setGpr r v).cfg = s.cfg := rfl

/-! ### `advance` -/

@[simp] theorem advance_regs : s.advance.regs = s.regs := rfl
@[simp] theorem advance_pc : s.advance.pc = s.pc + 4 := rfl
@[simp] theorem advance_mem : s.advance.mem = s.mem := rfl
@[simp] theorem advance_run : s.advance.run = s.run := rfl
@[simp] theorem advance_hostlog : s.advance.hostlog = s.hostlog := rfl
@[simp] theorem advance_cfg : s.advance.cfg = s.cfg := rfl
@[simp] theorem advance_reg : s.advance.reg i = s.reg i := rfl
@[simp] theorem advance_gpr : s.advance.gpr r = s.gpr r := rfl

/-! ### `raise` -/

@[simp] theorem raise_regs : (s.raise reason).regs = s.regs := rfl
@[simp] theorem raise_pc : (s.raise reason).pc = s.pc := rfl
@[simp] theorem raise_mem : (s.raise reason).mem = s.mem := rfl
@[simp] theorem raise_run : (s.raise reason).run = .halted reason := rfl
@[simp] theorem raise_hostlog : (s.raise reason).hostlog = s.hostlog := rfl
@[simp] theorem raise_cfg : (s.raise reason).cfg = s.cfg := rfl
@[simp] theorem raise_reg : (s.raise reason).reg i = s.reg i := rfl
@[simp] theorem raise_gpr : (s.raise reason).gpr r = s.gpr r := rfl

/-! ### `emit` -/

@[simp] theorem emit_regs : (s.emit q).regs = s.regs := rfl
@[simp] theorem emit_pc : (s.emit q).pc = s.pc := rfl
@[simp] theorem emit_mem : (s.emit q).mem = s.mem := rfl
@[simp] theorem emit_run : (s.emit q).run = s.run := rfl
@[simp] theorem emit_hostlog : (s.emit q).hostlog = s.hostlog ++ [q] := rfl
@[simp] theorem emit_cfg : (s.emit q).cfg = s.cfg := rfl
@[simp] theorem emit_reg : (s.emit q).reg i = s.reg i := rfl
@[simp] theorem emit_gpr : (s.emit q).gpr r = s.gpr r := rfl

/-! ### `finish` -/

@[simp] theorem finish_ok (t : State) : s.finish (.ok t) = t.advance := rfl
@[simp] theorem finish_error : s.finish (.error reason) = s.raise reason := rfl

/-! ### `withFetchWord` -/

@[simp] theorem withFetchWord_regs : (s.withFetchWord nbits w).regs = s.regs := rfl
@[simp] theorem withFetchWord_pc : (s.withFetchWord nbits w).pc = s.pc := rfl
@[simp] theorem withFetchWord_run : (s.withFetchWord nbits w).run = s.run := rfl
@[simp] theorem withFetchWord_hostlog : (s.withFetchWord nbits w).hostlog = s.hostlog := rfl
@[simp] theorem withFetchWord_cfg : (s.withFetchWord nbits w).cfg = s.cfg := rfl

/-! ### `launch` -/

variable (c : Config)

@[simp] theorem launch_regs : (State.launch c).regs = launchRegs c := rfl
@[simp] theorem launch_pc : (State.launch c).pc = c.entry := rfl
@[simp] theorem launch_mem : (State.launch c).mem = launchMem c := rfl
@[simp] theorem launch_run : (State.launch c).run = .running := rfl
@[simp] theorem launch_hostlog : (State.launch c).hostlog = [] := rfl
@[simp] theorem launch_cfg : (State.launch c).cfg = c := rfl

/-! ### Register reads after register writes -/

theorem reg_setReg : (s.setReg i v).reg j = if i = j then v else s.reg j := by
  simp [reg, setReg, Vector.getElem_set, Fin.ext_iff]

@[simp] theorem reg_setReg_same : (s.setReg i v).reg i = v := by
  simp [reg_setReg]

theorem reg_setReg_other (h : i ≠ j) : (s.setReg i v).reg j = s.reg j := by
  simp [reg_setReg, h]

theorem gprIndex_inj : gprIndex r = gprIndex r' ↔ r = r' := by
  simp [gprIndex, Fin.ext_iff]

theorem gprIndex_lt : (gprIndex r).val < 32 := r.isLt

theorem gpr_setGpr : (s.setGpr r v).gpr r' = if r = r' then v else s.gpr r' := by
  simp [gpr, setGpr, reg_setReg, gprIndex_inj]

@[simp] theorem gpr_setGpr_same : (s.setGpr r v).gpr r = v := by
  simp [gpr_setGpr]

/-- A write of a special register leaves every general register alone. -/
theorem gpr_setReg_special (h : 32 ≤ i.val) : (s.setReg i v).gpr r = s.gpr r := by
  have hi : i ≠ gprIndex r := fun e => by
    have := gprIndex_lt r
    rw [← e] at this
    omega
  exact reg_setReg_other s i (gprIndex r) v hi

/-- A write of a general register leaves every special register alone. -/
theorem reg_setGpr_special (h : 32 ≤ i.val) : (s.setGpr r v).reg i = s.reg i := by
  have hi : gprIndex r ≠ i := fun e => by
    have := gprIndex_lt r
    rw [e] at this
    omega
  exact reg_setReg_other s (gprIndex r) i v hi

end Sys2Proof.Machine.State
end

