-- ==== Sys2Proof/Laws/Ops.lean ====
section
/-! SUPPORT. What each shared operation can do, said once: the lemmas a proof cites instead of unfolding it. -/

namespace Sys2Proof.Machine

/-! ### Memory reads -/

theorem memRead1_eq_ok {s : State} {a : Nat} {b : Byte} :
    s.memRead1 a = .ok b ↔ a < s.cfg.capacity ∧ b = s.mem.read a := by
  simp only [State.memRead1]
  split
  · simp; omega
  · simp [eq_comm]; omega

theorem memRead1_eq_error {s : State} {a : Nat} {reason : HaltReason} :
    s.memRead1 a = .error reason ↔ s.cfg.capacity ≤ a ∧ reason = .outOfBounds := by
  simp only [State.memRead1]
  split
  · simp [*, eq_comm]
  · simp; omega

theorem memRead4_eq_ok {s : State} {a : Nat} {w : Word} :
    s.memRead4 a = .ok w ↔ a + 3 < s.cfg.capacity ∧
      w = composeBE (s.mem.read a) (s.mem.read (a + 1)) (s.mem.read (a + 2)) (s.mem.read (a + 3)) := by
  simp only [State.memRead4]
  split
  · simp; omega
  · simp [eq_comm]; omega

theorem memRead4_eq_error {s : State} {a : Nat} {reason : HaltReason} :
    s.memRead4 a = .error reason ↔ s.cfg.capacity ≤ a + 3 ∧ reason = .outOfBounds := by
  simp only [State.memRead4]
  split
  · simp [*, eq_comm]
  · simp; omega

theorem memBytes_eq_ok {s : State} {a len : Nat} {bytes : List Byte} :
    s.memBytes a len = .ok bytes ↔ (len = 0 ∨ a + len ≤ s.cfg.capacity) ∧
      bytes = (List.range' a len).map s.mem.read := by
  simp only [State.memBytes]
  split
  · simp; omega
  · simp [eq_comm]; omega

theorem memBytes_eq_error {s : State} {a len : Nat} {reason : HaltReason} :
    s.memBytes a len = .error reason ↔ 0 < len ∧ s.cfg.capacity < a + len ∧ reason = .outOfBounds := by
  simp only [State.memBytes]
  split
  · simp [*, eq_comm]
  · simp; omega

/-- A byte written through the checked operation is read back, and every other byte is as before. -/
theorem memRead1_memWrite1 {s t : State} {a : Nat} {v : Byte} (hm : s.mem.wf) (h : s.memWrite1 a v = .ok t) (a' : Nat) :
    t.memRead1 a' = if a' = a then .ok v else s.memRead1 a' := by
  simp only [State.memWrite1] at h
  split at h
  · cases h
  · cases h
    simp only [State.memRead1, Memory.read_write hm]
    by_cases h' : a' = a <;> simp_all

/-! ### Fetching -/

/-- A step fetches an instruction exactly when the four bytes at the pc lie in memory and their word decodes. -/
theorem fetchInstr_eq_ok {s : State} {i : Instr} :
    s.fetchInstr = .ok i ↔ ∃ w, s.fetchWord s.pc.toNat 0 = .ok w ∧ decode s.cfg.keys w = .ok i := by
  simp only [State.fetchInstr]
  split
  · rename_i h
    simp only [reduceCtorEq, false_iff, not_exists, not_and]
    intro w hw
    have := (memRead4_eq_ok.1 hw).1
    omega
  · split
    · rename_i h
      simp [h]
    · rename_i w h
      rw [h]
      cases hd : decode s.cfg.keys w with
      | ok j => simp [Except.mapError, hd]
      | error e => simp [Except.mapError, hd]

/-- What a step raises before any handler: a pc whose word leaves memory, or a key with no table entry. -/
theorem fetchInstr_eq_error {s : State} {reason : HaltReason} :
    s.fetchInstr = .error reason ↔
      (s.cfg.capacity ≤ s.pc.toNat + 3 ∧ reason = .outOfBounds) ∨
      ∃ w e, s.fetchWord s.pc.toNat 0 = .ok w ∧ decode s.cfg.keys w = .error e ∧ reason = decodeReason e := by
  simp only [State.fetchInstr]
  split
  · rename_i h
    constructor
    · intro e
      cases e
      exact .inl ⟨by omega, rfl⟩
    · rintro (⟨-, rfl⟩ | ⟨w, e, hw, -⟩)
      · rfl
      · have := (memRead4_eq_ok.1 hw).1
        omega
  · split
    · rename_i r h
      obtain ⟨hc, rfl⟩ := memRead4_eq_error.1 h
      rw [h]
      simp only [Except.error.injEq, reduceCtorEq, false_and, exists_false, or_false]
      constructor
      · rintro rfl
        exact ⟨by omega, rfl⟩
      · rintro ⟨-, rfl⟩
        rfl
    · rename_i w h
      have h' := (memRead4_eq_ok.1 h).1
      have h'' : ¬ s.cfg.capacity ≤ s.pc.toNat + 3 := by omega
      rw [h]
      cases hd : decode s.cfg.keys w with
      | ok j => simp [Except.mapError, hd, h'']
      | error e => simp [Except.mapError, hd, h'', eq_comm]

/-! ### One step -/

theorem step_of_error {s : State} {reason : HaltReason} (hr : s.run = .running) (h : s.fetchInstr = .error reason) :
    step s = .next (s.raise reason) := by
  simp [step, hr, h]

theorem step_of_ok {s : State} {i : Instr} (hr : s.run = .running) (h : s.fetchInstr = .ok i) :
    step s = exec i s := by
  simp [step, hr, h]

/-- Everything a step with a next state can be: a condition raised before any handler, or one handler run. -/
theorem step_next_cases {s t : State} (h : step s = .next t) :
    s.run = .running ∧
      ((∃ reason, s.fetchInstr = .error reason ∧ t = s.raise reason) ∨
       ∃ i, s.fetchInstr = .ok i ∧ exec i s = .next t) := by
  cases hr : s.run with
  | halted reason => simp [step, hr] at h
  | running =>
    refine ⟨rfl, ?_⟩
    cases hf : s.fetchInstr with
    | error reason =>
      rw [step_of_error hr hf] at h
      cases h
      exact .inl ⟨reason, rfl, rfl⟩
    | ok i =>
      rw [step_of_ok hr hf] at h
      exact .inr ⟨i, rfl, h⟩

end Sys2Proof.Machine
end

