-- ==== Sys2Proof/Laws/PerInstr.lean ====
section
/-! SUPPORT. The statements made instruction by instruction: the canonical word of an instruction carries the
instruction's own key (spec/30_encoding.md rules R61, R70). -/

namespace Sys2Proof.Laws.EncodeKey

/-- Under keys that are multiples of 4, the key of the canonical word of `i` is the key of `i`. -/
def Statement (i : Instr) : Prop :=
  ∀ k : OpKeys, (∀ b ∈ k.toList, b.toNat % 4 = 0) → opKey (encode k i) = instrKey k i

theorem halt : Statement .halt := fun _ _ => (by decide : opKey 0x00000000 = 0x00)

theorem addi (fa fb : GprIdx) (imm : BitVec 16) : Statement (.addi fa fb imm) := fun k h =>
  opKey_enc (h k.addi (by simp [OpKeys.toList])) fa fb imm

theorem lis (fa : GprIdx) (imm : BitVec 16) : Statement (.lis fa imm) := fun k h =>
  opKey_enc (h k.lis (by simp [OpKeys.toList])) fa 0 imm

theorem sc : Statement .sc := fun k h => opKey_enc (h k.sc (by simp [OpKeys.toList])) 0 0 0

theorem mtspr (fa : GprIdx) (sel : BitVec 21) : Statement (.mtspr fa sel) := fun k h =>
  opKey_encSel (h k.mtspr (by simp [OpKeys.toList])) fa sel

theorem lwz (fa fb : GprIdx) (imm : BitVec 16) : Statement (.lwz fa fb imm) := fun k h =>
  opKey_enc (h k.lwz (by simp [OpKeys.toList])) fa fb imm

end Sys2Proof.Laws.EncodeKey
end

