-- ==== Sys2Proof/Laws/Run.lean ====
section
/-! SUPPORT. Runs of several steps: one step and then the rest. -/

namespace Sys2Proof.Machine

theorem runSteps_zero (s : State) : runSteps 0 s = .next s := rfl

theorem runSteps_of_next {s t : State} (h : step s = .next t) (k : Nat) : runSteps (k + 1) s = runSteps k t := by
  simp [runSteps, h]

theorem runSteps_of_fault {s : State} {f : Fault} (h : step s = .fault f) (k : Nat) :
    runSteps (k + 1) s = .fault f := by
  simp [runSteps, h]

end Sys2Proof.Machine
end

