-- ==== Sys2Proof/Tests/Slice0.lean ====
section
/-! SUPPORT. Tests. Expected results are the spec's own vectors (spec/95_test_vectors.md, named V-* and S*) or are worked
out by hand from the rule named. The `witness_` theorems show states and operands that meet the hypotheses of a statement
in Certificates/Slice0/Obligations.lean, at the boundary values of its clauses. -/

namespace Sys2Proof.Tests

open Sys2Proof Sys2Proof.Machine

/-! ### Helpers -/

/-- The next state, if there is one. -/
def next? : Host.Outcome State Fault Refusal → Option State
  | .next t => some t
  | .fault _ => none
  | .refused _ => none

/-- Reset with a word stored at the pc. -/
def wordState (w : Nat) : State := State.reset.withFetchWord 32 w

/-- A small launch: six image bytes. -/
def smallConfig : Config := { defaultConfig with image := [0x00, 0x12, 0x00, 0x34, 0x00, 0x56] }

/-- Another key map: the keys need not be this hardware's. -/
def otherKeys : OpKeys := { lis := 0x04, addi := 0xFC, lwz := 0x08, mtspr := 0x0C, sc := 0x10 }

/-! ### Well-formedness: an ill-formed term for each check -/

theorem test_wf_keys : defaultKeys.wellFormed = true ∧ otherKeys.wellFormed = true := by decide
theorem test_wf_keys_refuses_equal : { defaultKeys with lis := 0x38 }.wellFormed = false := by decide
theorem test_wf_keys_refuses_odd : { defaultKeys with lwz := 0x81 }.wellFormed = false := by decide
theorem test_wf_keys_refuses_zero : { defaultKeys with sc := 0x00 }.wellFormed = false := by decide

theorem test_wf_config : defaultConfig.wellFormed = true ∧ smallConfig.wellFormed = true := by decide
theorem test_wf_config_refuses_no_memory : { defaultConfig with capacity := 0 }.wellFormed = false := by decide
theorem test_wf_config_refuses_big_memory : { defaultConfig with capacity := 2 ^ 32 }.wellFormed = false := by decide
theorem test_wf_config_refuses_entry : { defaultConfig with entry := 0xB2 }.wellFormed = false := by decide
theorem test_wf_config_refuses_long_image :
    { defaultConfig with image := List.replicate 513 0 }.wellFormed = false := by decide +kernel
theorem test_wf_config_refuses_image_beyond_memory :
    { smallConfig with capacity := 5 }.wellFormed = false := by decide
theorem test_wf_config_refuses_keys :
    { defaultConfig with keys := { defaultKeys with sc := 0 } }.wellFormed = false := by decide

theorem test_wf_asm : (Asm.addi 31 1 65535).wellFormed = true ∧ (Asm.mtspr 0x1FFFFF 31).wellFormed = true := by decide
theorem test_wf_asm_refuses_register :
    (Asm.lis 32 0).wellFormed = false ∧ (Asm.addi 32 1 0).wellFormed = false ∧ (Asm.addi 0 32 0).wellFormed = false
    ∧ (Asm.li 32 0).wellFormed = false ∧ (Asm.lwz 32 0 0).wellFormed = false ∧ (Asm.lwz 0 0 32).wellFormed = false
    ∧ (Asm.mtspr 0 32).wellFormed = false ∧ (Asm.mtctr 32).wellFormed = false ∧ (Asm.mtlr 32).wellFormed = false
    ∧ (Asm.mtxer 32).wellFormed = false := by decide
theorem test_wf_asm_refuses_immediate :
    (Asm.lis 0 65536).wellFormed = false ∧ (Asm.addi 0 1 65536).wellFormed = false ∧ (Asm.li 0 65536).wellFormed = false
    ∧ (Asm.lwz 0 65536 0).wellFormed = false ∧ (Asm.mtspr 0x200000 0).wellFormed = false := by decide
theorem test_wf_asm_refuses_add_form_without_base : (Asm.addi 3 0 1).wellFormed = false := by decide

/-! ### Decoding: a word of every constructor, written bit by bit from 30_encoding.md sections 1 and 4 -/

theorem test_decode_halt : decode defaultKeys 0b000000_11111_11111_1111111111111111 = .ok .halt := by decide
theorem test_decode_addi : decode defaultKeys 0b001110_00011_00100_0000000000001010 = .ok (.addi 3 4 10) := by decide
theorem test_decode_lis : decode defaultKeys 0b001111_00101_00111_0001001000110100 = .ok (.lis 5 0x1234) := by decide
theorem test_decode_sc : decode defaultKeys 0b010001_00000_00000_0000000000000010 = .ok .sc := by decide
theorem test_decode_mtspr : decode defaultKeys 0b011111_11111_00000_0001000000000000 = .ok (.mtspr 31 0x1000) := by decide
theorem test_decode_lwz : decode defaultKeys 0b100000_11111_00001_0000000000010000 = .ok (.lwz 31 1 16) := by decide
/-- V-D4, V-D5, V-D6. -/
theorem test_decode_unimplemented :
    decode defaultKeys 0x04000000 = .error (.unimplementedOpcode 0x04)
    ∧ decode defaultKeys 0x4B123456 = .error (.unimplementedOpcode 0x48)
    ∧ decode defaultKeys 0xFFFFFFFF = .error (.unimplementedOpcode 0xFC) := by decide
theorem test_decode_truncated : decodeBytes defaultKeys [0x3C, 0x20, 0x00] = .error (.truncated 3) := by decide
/-- S1: the first byte in memory is the most significant. -/
theorem test_decode_bytes : decodeBytes defaultKeys [0x3C, 0x20, 0x00, 0x05] = .ok (.lis 1 5, []) := by decide
theorem test_decode_table_word : decodeTableWord 32 0x80460008 = some (.lwz 2 6 8) := by decide
/-- 30_encoding.md section 6. -/
theorem test_encode :
    encode defaultKeys (.lis 5 0x1234) = 0x3CA01234 ∧ encode defaultKeys (.addi 3 4 10) = 0x3864000A
    ∧ encode defaultKeys (.lwz 2 6 8) = 0x80460008 ∧ encode defaultKeys (.mtspr 6 0x1001) = 0x7CC01001
    ∧ encode defaultKeys .sc = 0x44000000 ∧ encode defaultKeys .halt = 0 := by decide
/-- V-L2, V-A4, V-M2 as assembler lines. -/
theorem test_assemble :
    assemble defaultKeys (.lis 31 0x8000) = some 0x3FE08000 ∧ assemble defaultKeys (.li 31 0xFFFF) = some 0x3BE0FFFF
    ∧ assemble defaultKeys (.mtlr 31) = some 0x7FE01000 ∧ assemble defaultKeys (.addi 3 0 1) = none := by decide

/-- S4 and V-W3: the two registers of an `lwz` line stand in their own fields. -/
theorem test_assemble_lwz :
    assemble defaultKeys (.lwz 2 8 6) = some 0x80460008 ∧ assemble defaultKeys (.lwz 3 0x10 0) = some 0x80600010 := by
  decide

/-! ### One step of each instruction -/

/-- V-D3: the halt opcode with every ignored bit set. -/
theorem test_step_halt :
    (next? (step (wordState 0x03FFFFFF))).map (fun t => (t.run, t.pc)) = some (.halted .endOfProgram, 0xB0) := by decide

/-- V-A3: `addi r8, r8, 1` wraps. -/
theorem test_step_addi_wraps :
    (next? (step ((wordState 0x39080001).setGpr 8 0xFFFFFFFF))).map (fun t => (t.gpr 8, t.pc)) = some (0, 0xB4) := by
  decide

/-- V-A7: `li r3, 7` does not add r0. -/
theorem test_step_li_reads_no_register :
    (next? (step ((wordState 0x38600007).setGpr 0 0x1000))).map (fun t => t.gpr 3) = some 7 := by decide

/-- V-L4: `lis r5, 0x1234` with FB = 7 adds nothing. -/
theorem test_step_lis_ignores_fb :
    (next? (step ((wordState 0x3CA71234).setGpr 7 0x11111111))).map (fun t => (t.gpr 5, t.pc))
      = some (0x12340000, 0xB4) := by decide

/-- V-W2: `lwz r4, 0(r4)`: one byte, zero-extended, the base read before the write. -/
theorem test_step_lwz_loads_one_byte :
    (next? (step { (wordState 0x80840000).setGpr 4 0x200 with
        mem := [(0xB0, 0x80), (0xB1, 0x84), (0x200, 0xFF), (0x201, 0x01)] })).map (fun t => (t.gpr 4, t.pc))
      = some (0xFF, 0xB4) := by decide

/-- V-W6: `lwz r5, 1(r7)` one byte beyond memory. -/
theorem test_step_lwz_out_of_bounds :
    (next? (step (((wordState 0x80A70001).setGpr 7 0x3FFFF).setGpr 5 0x77))).map (fun t => (t.run, t.gpr 5, t.pc))
      = some (.halted .outOfBounds, 0x77, 0xB0) := by decide

/-- V-M1: `mtctr r6`. -/
theorem test_step_mtctr :
    (next? (step ((wordState 0x7CC01001).setGpr 6 0x12355677))).map (fun t => (t.ctr, t.lr, t.xer, t.pc))
      = some (0x12355677, 0, 0, 0xB4) := by decide

/-- V-M5: a selector with FB = 1 is no listed one. -/
theorem test_step_mtspr_unlisted :
    (next? (step ((wordState 0x7CC11001).setGpr 6 5))).map (fun t => (t.ctr, t.pc)) = some (0, 0xB4) := by decide

/-- V-S1: the write call. -/
theorem test_step_sc_write :
    (next? (step { ((((wordState 0x44000000).setGpr 0 4).setGpr 3 1).setGpr 4 0x100).setGpr 5 4 with
        mem := [(0xB0, 0x44), (0x100, 0x48), (0x101, 0x69), (0x102, 0x21), (0x103, 0x0A)] })).map
          (fun t => (t.hostlog, t.pc))
      = some ([.write 1 [0x48, 0x69, 0x21, 0x0A]], 0xB4) := by decide

/-- V-S6: the exit call with a negative code. -/
theorem test_step_sc_exit :
    (next? (step (((wordState 0x44000000).setGpr 0 1).setGpr 3 0xFFFFFFFE))).map (fun t => (t.run, t.hostlog, t.pc))
      = some (.halted (.hostExit (-2)), [.exit (-2)], 0xB0) := by decide

/-! ### The loop and the fetcher -/

/-- V-D5: the masked key is reported, not the top byte. -/
theorem test_step_unimplemented :
    (next? (step (wordState 0x4B123456))).map (fun t => (t.run, t.pc))
      = some (.halted (.unimplementedOpcode 0x48), 0xB0) := by decide

/-- V-X1, V-X3: a pc at the end of memory, and a word that straddles it. -/
theorem test_step_end_of_memory :
    (next? (step { State.reset with pc := 0x40000 })).map (fun t => (t.run, t.pc)) = some (.halted .outOfBounds, 0x40000)
    ∧ (next? (step { State.reset with pc := 0x3FFFE })).map (fun t => t.run) = some (.halted .outOfBounds) := by decide

/-- V-X4: a halted state has no step. -/
theorem test_step_halted : next? (step (State.reset.raise .endOfProgram)) = none := by decide

/-- V-F3: no alignment check. -/
theorem test_fetch_misaligned :
    State.fetchWord { State.reset with mem := [(0x10, 0x12), (0x11, 0x34), (0x12, 0x56), (0x13, 0x78), (0x14, 0x9A)] } 0x11 0
      = .ok 0x3456789A := by decide

/-- V-F4: the last word of memory is fetched, the next address is not, and no sum wraps. -/
theorem test_fetch_bounds :
    State.reset.fetchWord 0x3FFFC 0 = .ok 0 ∧ State.reset.fetchWord 0x3FFFD 0 = .error .outOfBounds
    ∧ State.reset.fetchWord 0xFFFFFFFF 0 = .error .outOfBounds := by decide

/-- From reset with nothing placed, the first step reads a zero word and ends the run (R50, R150). -/
theorem test_first_step_from_reset : (next? (step State.reset)).map (fun t => t.run) = some (.halted .endOfProgram) := by
  decide

/-! ### Witnesses for the hypotheses of the statements -/

theorem witness_LaunchLeavesSpecValues :
    smallConfig.wellFormed = true ∧ 5 < smallConfig.image.length ∧ smallConfig.image.length ≤ 6
    ∧ 0x3FFFF < smallConfig.capacity ∧ smallConfig.capacity ≤ 0x40000 := by decide

theorem witness_LoadImageWritesEachByte :
    Memory.wf [(3, 7), (9, 1)] ∧ 1 < [(5 : Byte), 6].length ∧ (2 < 3 ∨ 3 + [(5 : Byte), 6].length ≤ 2)
    ∧ (5 < 3 ∨ 3 + [(5 : Byte), 6].length ≤ 5) := by decide

theorem witness_WriteByteWritesOneByte :
    State.reset.mem.wf ∧ 0x3FFFF < State.reset.cfg.capacity ∧ State.reset.cfg.capacity ≤ 0x40000 := by decide

theorem witness_ByteReadIsBoundsChecked :
    State.reset.cfg.capacity ≤ 0x40000 ∧ 0x3FFFF < State.reset.cfg.capacity := by decide

theorem witness_WordReadIsBigEndian :
    State.reset.cfg.capacity ≤ 0x3FFFD + 3 ∧ 0x3FFFC + 3 < State.reset.cfg.capacity
    ∧ (wordState 0x3C200005).mem.read 0xB0 = 0x3C ∧ (wordState 0x3C200005).mem.read 0xB1 = 0x20
    ∧ (wordState 0x3C200005).mem.read 0xB2 = 0x00 ∧ (wordState 0x3C200005).mem.read 0xB3 = 0x05 := by decide

theorem witness_BufferReadIsCheckedWhole :
    (0 < 2 ∧ State.reset.cfg.capacity < 0x3FFFF + 2) ∧ 0x3FFFF + 1 ≤ State.reset.cfg.capacity := by decide

theorem witness_FetchReadsWordAtOffset :
    State.reset.cfg.capacity ≤ 0x3FFF9 + 4 + 3 ∧ 0x3FFF8 + 4 + 3 < State.reset.cfg.capacity := by decide

theorem witness_RegisterFileContract : (36 : Nat) ≤ 36 ∧ 35 < 36 ∧ (34 : Nat) ≠ 35 := by decide

/-- A table with an entry at key 0x00, which is never reached, and at 0x04. -/
theorem witness_DispatchLooksAtKeyAlone :
    (0x03FFFFFF#32 >>> 24) &&& 0xFC#32 = 0
    ∧ ((0x08000000#32 >>> 24) &&& 0xFC#32 ≠ 0
        ∧ (fun b : Byte => if b = 0 ∨ b = 4 then some Handler.sc else none)
            (((0x08000000#32 >>> 24) &&& 0xFC#32).setWidth 8) = none)
    ∧ ((0x07FFFFFF#32 >>> 24) &&& 0xFC#32 ≠ 0
        ∧ (fun b : Byte => if b = 0 ∨ b = 4 then some Handler.sc else none)
            (((0x07FFFFFF#32 >>> 24) &&& 0xFC#32).setWidth 8) = some .sc)
    ∧ (0x07FFFFFF#32).toNat / 2 ^ 26 = (0x04000000#32).toNat / 2 ^ 26 := by decide

theorem witness_DecodeOfEncodeIsIdentity : defaultKeys.wellFormed = true ∧ otherKeys.wellFormed = true := by decide

theorem witness_EncodeOfDecodeClearsIgnoredBits :
    defaultKeys.wellFormed = true ∧ decode defaultKeys 0x3CA71234 = .ok (.lis 5 0x1234) := by decide

theorem witness_IgnoredBitsDoNotMatter :
    decode defaultKeys 0x3CA71234 = .ok (.lis 5 0x1234)
    ∧ 0x3CA01234#32 &&& usedBits (.lis 5 0x1234) = 0x3CA71234#32 &&& usedBits (.lis 5 0x1234) := by decide

theorem witness_PseudoInstructionExpansions : 31 < 32 ∧ 65535 < 65536 := by decide

/-- The largest operands in range, and the smallest base of the add form. -/
theorem witness_PlainAssemblerLinesAsWords :
    31 < 32 ∧ 65535 < 65536 ∧ (1 < 32 ∧ 1 ≠ 0) ∧ 0x1FFFFF < 2 ^ 21 := by decide

/-- Each way a line can be out of range, at the first value that is, and a line in range. -/
theorem witness_AssemblerRefusesLinesOutOfRange :
    assemble defaultKeys (.lis 32 65535) = none ∧ assemble defaultKeys (.lis 31 65536) = none
    ∧ assemble defaultKeys (.addi 31 0 65535) = none ∧ assemble defaultKeys (.mtspr (2 ^ 21) 31) = none
    ∧ assemble defaultKeys (.mtspr (2 ^ 21 - 1) 31) = some 0x7FFFFFFF := by decide

theorem witness_StepRunsDecodedInstruction :
    (wordState 0x80460008).run = .running
    ∧ (wordState 0x80460008).fetchWord (wordState 0x80460008).pc.toNat 0 = .ok 0x80460008
    ∧ decode (wordState 0x80460008).cfg.keys 0x80460008 = .ok (.lwz 2 6 8) := by decide

theorem witness_StepRunsEncodedInstruction :
    (wordState 0x7CC01001).run = .running ∧ (wordState 0x7CC01001).cfg.keys.wellFormed = true
    ∧ (wordState 0x7CC01001).pc.toNat + 3 < (wordState 0x7CC01001).cfg.capacity
    ∧ [(wordState 0x7CC01001).mem.read 0xB0, (wordState 0x7CC01001).mem.read 0xB1,
        (wordState 0x7CC01001).mem.read 0xB2, (wordState 0x7CC01001).mem.read 0xB3]
      = encodeBytes (wordState 0x7CC01001).cfg.keys (.mtspr 6 0x1001) := by decide

theorem witness_HaltWordEndsRun :
    ((wordState 0x03FFFFFF).run = .running ∧ (wordState 0x03FFFFFF).fetchWord 0xB0 0 = .ok 0x03FFFFFF
      ∧ (0x03FFFFFF#32).toNat < 0x04000000)
    ∧ ((wordState 0x04000000).run = .running ∧ (wordState 0x04000000).fetchWord 0xB0 0 = .ok 0x04000000
      ∧ 0x04000000 ≤ (0x04000000#32).toNat) := by decide

theorem witness_UnregisteredKeyEndsRun :
    (wordState 0x04000000).run = .running ∧ (wordState 0x04000000).fetchWord 0xB0 0 = .ok 0x04000000
    ∧ 0x04000000 ≤ (0x04000000#32).toNat
    ∧ ∀ b ∈ (wordState 0x04000000).cfg.keys.toList, b.toNat ≠ 4 * ((0x04000000#32).toNat / 2 ^ 26) := by decide

theorem witness_PcOutsideMemoryEndsRun :
    { State.reset with pc := 0x3FFFD }.run = .running
    ∧ { State.reset with pc := 0x3FFFD }.cfg.capacity ≤ { State.reset with pc := 0x3FFFD }.pc.toNat + 3 := by decide

theorem witness_HaltedStateHasNoStep :
    (State.reset.raise (.hostExit 3)).run = .halted (.hostExit 3) := by decide

theorem witness_RunningAlwaysSteps :
    State.reset.run = .running ∧ (State.reset.raise .outOfBounds).run = .halted .outOfBounds := by decide

/-- V-W5: the last byte of memory. -/
theorem witness_LwzResult :
    ((State.reset.setGpr 7 0x30000).gpr 7).toNat % 2 ^ 28 + (0xFFFF#16).toNat
      < (State.reset.setGpr 7 0x30000).cfg.capacity := by decide

/-- V-W6: one byte beyond. -/
theorem witness_LwzOutsideMemory :
    (State.reset.setGpr 7 0x3FFFF).cfg.capacity
      ≤ ((State.reset.setGpr 7 0x3FFFF).gpr 7).toNat % 2 ^ 28 + (1#16).toNat := by decide

theorem witness_MtsprResult :
    (0x1002#21).toNat ∉ [0x1001, 0x1000, 0x0001] ∧ (0x011001#21).toNat ∉ [0x1001, 0x1000, 0x0001]
    ∧ (0#21).toNat ∉ [0x1001, 0x1000, 0x0001] := by decide

theorem witness_MtsprWithBFieldIsNoOp :
    (wordState 0x7CC11001).run = .running ∧ (wordState 0x7CC11001).cfg.keys = defaultKeys
    ∧ (wordState 0x7CC11001).fetchWord (wordState 0x7CC11001).pc.toNat 0 = .ok 0x7CC11001
    ∧ (0x7CC11001#32).toNat / 2 ^ 26 = 31 ∧ (0x7CC11001#32).toNat / 2 ^ 16 % 32 ≠ 0 := by decide

/-- V-S13 (the range ends at CAPACITY) and V-S3 (an empty buffer beyond memory). -/
theorem witness_ScWriteResult :
    (((State.reset.setGpr 0 4).setGpr 5 0x40000).gpr 0 = 4
      ∧ ((State.reset.setGpr 0 4).setGpr 5 0x40000).cfg.capacity
        = 0 + (((State.reset.setGpr 0 4).setGpr 5 0x40000).gpr 5).toNat)
    ∧ ((State.reset.setGpr 0 4).setGpr 4 0xFFFFFFFF).gpr 0 = 4
    ∧ 0x0FF0FFFF = (((State.reset.setGpr 0 4).setGpr 4 0xFFFFFFFF).gpr 4).toNat / 2 ^ 20 % 2 ^ 8 * 2 ^ 20
        + (((State.reset.setGpr 0 4).setGpr 4 0xFFFFFFFF).gpr 4).toNat % 2 ^ 16
    ∧ 0 = (((State.reset.setGpr 0 4).setGpr 4 0xFFFFFFFF).gpr 5).toNat := by decide

/-- V-S9: one range beyond memory. -/
theorem witness_ScWriteOutsideMemory :
    (((State.reset.setGpr 0 4).setGpr 4 0xFFFE).setGpr 5 0x30003).gpr 0 = 4
    ∧ 0xFFFE = ((((State.reset.setGpr 0 4).setGpr 4 0xFFFE).setGpr 5 0x30003).gpr 4).toNat / 2 ^ 20 % 2 ^ 8 * 2 ^ 20
        + ((((State.reset.setGpr 0 4).setGpr 4 0xFFFE).setGpr 5 0x30003).gpr 4).toNat % 2 ^ 16
    ∧ 0x30003 = ((((State.reset.setGpr 0 4).setGpr 4 0xFFFE).setGpr 5 0x30003).gpr 5).toNat ∧ 0 < 0x30003
    ∧ State.reset.cfg.capacity < 0xFFFE + 0x30003 := by decide

theorem witness_ScExitResult :
    ((State.reset.setGpr 0 1).setGpr 3 0x80000000).gpr 0 = 1
    ∧ (-2147483648 : Int) = (if (((State.reset.setGpr 0 1).setGpr 3 0x80000000).gpr 3).toNat < 2 ^ 31
        then (((State.reset.setGpr 0 1).setGpr 3 0x80000000).gpr 3).toNat
        else (((State.reset.setGpr 0 1).setGpr 3 0x80000000).gpr 3).toNat - 2 ^ 32 : Int) := by decide

/-- V-S8 and V-S7. -/
theorem witness_ScOtherNumberIsNoOp :
    (((State.reset.setGpr 0 0x00010004).gpr 0).toNat ≠ 4 ∧ ((State.reset.setGpr 0 0x00010004).gpr 0).toNat ≠ 1)
    ∧ ((State.reset.gpr 0).toNat ≠ 4 ∧ (State.reset.gpr 0).toNat ≠ 1)
    ∧ ∃ t, exec (.lis 5 1) State.reset = .next t ∧ Instr.lis 5 1 ≠ .sc :=
  ⟨by decide, by decide, _, rfl, by decide⟩

theorem witness_GeneralRegisterWritersFrame :
    Instr.lwz 2 6 8 ∈ [Instr.addi 2 6 8, .lis 2 8, .lwz 2 6 8] ∧ ∃ t, exec (.lwz 2 6 8) State.reset = .next t ∧ t.run = .running :=
  ⟨by decide, _, rfl, by decide⟩

theorem witness_SpecialMoveFrame : ∃ t, exec (.mtspr 1 0x1001) State.reset = .next t ∧ t.ctr = 0x500 :=
  ⟨_, rfl, by decide⟩

theorem witness_SystemInstructionsFrame :
    (∃ t, exec .sc (State.reset.setGpr 0 1) = .next t ∧ t.hostlog = [.exit 0])
    ∧ ∃ t, exec .halt State.reset = .next t ∧ t.run = .halted .endOfProgram :=
  ⟨⟨_, rfl, by decide⟩, _, rfl, rfl⟩

theorem witness_PcAdvancesByFourOrStays : ∃ t, exec (.addi 1 1 1) State.reset = .next t ∧ t.pc = 0xB4 :=
  ⟨_, rfl, by decide⟩

/-- A step that halts: for the statements about conditions. -/
theorem witness_ConditionsArePrecise :
    ∃ t, step (wordState 0x4B123456) = .next t ∧ t.run = .halted (.unimplementedOpcode 0x48) :=
  ⟨_, rfl, by decide⟩

theorem witness_OutOfBoundsHasTheseCausesAlone :
    (∃ t, step ((wordState 0x80A70001).setGpr 7 0x3FFFF) = .next t ∧ t.run = .halted .outOfBounds)
    ∧ ∃ t, step ((wordState 0x80A70001).setGpr 7 0x3FFFE) = .next t ∧ t.run = .running :=
  ⟨⟨_, rfl, by decide⟩, _, rfl, by decide⟩

theorem witness_FaultsComeFromFetchLoadOrWriteAlone :
    ∃ t, step (wordState 0x4B123456) = .next t ∧ t.run = .halted (.unimplementedOpcode 0x48)
      ∧ (HaltReason.unimplementedOpcode 0x48).isFault = true :=
  ⟨_, rfl, by decide, rfl⟩

/-- A step that completes: for the statements about every step. -/
theorem witness_StepKeepsMemoryAndConfiguration :
    ∃ t, step (wordState 0x3CA01234) = .next t ∧ t.gpr 5 = 0x12340000 := ⟨_, rfl, by decide⟩

theorem witness_OnlySystemCallsExtendLog :
    ∃ t, step ((wordState 0x44000000).setGpr 0 4) = .next t ∧ t.hostlog = [.write 0 []] := ⟨_, rfl, by decide⟩

theorem witness_SpecialRegistersChangeByMtsprAlone :
    ∃ t, step (wordState 0x7C201000) = .next t ∧ t.lr = 0x500 := ⟨_, rfl, by decide⟩

/-- Two states that differ in CTR alone. -/
theorem witness_SpecialRegistersNeverInfluenceRun :
    (wordState 0x3CA01234).SameButSpecial ((wordState 0x3CA01234).setReg 34 7)
    ∧ wordState 0x3CA01234 ≠ (wordState 0x3CA01234).setReg 34 7
    ∧ ∃ t, runSteps 1 (wordState 0x3CA01234) = .next t :=
  ⟨⟨fun r => (State.gpr_setReg_special _ 34 r 7 (by decide)).symm, rfl, rfl, rfl, rfl, rfl⟩, by decide, _, rfl⟩

/-- A launch with a small image has the invariant, and it steps. -/
theorem witness_StepKeepsInvariant :
    (State.launch smallConfig).Inv ∧ ∃ t, step (State.launch smallConfig) = .next t :=
  ⟨⟨by decide, rfl, by decide, by decide, .inl rfl, by decide, by decide, fun code => by simp, fun key => by simp⟩, _, rfl⟩

theorem witness_LaunchMeetsInvariant : smallConfig.wellFormed = true := by decide

theorem witness_InvariantFixesMemory :
    (State.launch smallConfig).Inv ∧ 5 < (State.launch smallConfig).cfg.image.length
    ∧ (State.launch smallConfig).cfg.image.length ≤ 6 :=
  ⟨witness_StepKeepsInvariant.1, by decide, by decide⟩

/-- A running state two words before the end of memory. -/
theorem witness_EveryRunEnds :
    { State.reset with pc := 0x3FFF8 }.run = .running ∧ { State.reset with pc := 0x3FFF8 }.cfg.capacity ≤ 2 ^ 32 - 1 := by
  decide

end Sys2Proof.Tests
end

section
/-! ## The decoder, the configuration and the memory: facts the state's obligations need -/

namespace Sys2Proof

/-- The key is the primary opcode followed by two zero bits (R61), so it is four times the primary opcode. -/
theorem opKey_toNat (w : Word) : (opKey w).toNat = 4 * (w.toNat / 2 ^ 26) := by
  have happ : opKey w = w.extractLsb' 26 6 ++ 0#2 := by
    apply BitVec.eq_of_getLsbD_eq
    intro i hi
    simp only [opKey, BitVec.getLsbD_setWidth, BitVec.getLsbD_and, BitVec.getLsbD_ushiftRight, BitVec.getLsbD_append,
      BitVec.getLsbD_extractLsb']
    interval_cases i <;> simp
  have := w.isLt
  rw [happ, BitVec.toNat_append]
  simp only [BitVec.extractLsb'_toNat, Nat.shiftRight_eq_div_pow, Nat.shiftLeft_eq, BitVec.toNat_ofNat, Nat.zero_mod,
    Nat.or_zero]
  omega

/-- A word is refused exactly when its key is neither 0 nor in the table, and then with that key (R89, R134). -/
theorem decode_eq_error {k : OpKeys} {w : Word} {e : DecodeError} :
    decode k w = .error e ↔
      opKey w ≠ 0 ∧ opTable k (opKey w) = none ∧ e = .unimplementedOpcode (opKey w) := by
  by_cases h0 : opKey w = 0
  · simp [decode, decodeWith, h0]
  · cases ht : opTable k (opKey w) with
    | none =>
      simp only [decode, decodeWith, h0, ht, if_false, ne_eq, not_false_eq_true, true_and, Except.error.injEq]
      exact eq_comm
    | some hd => simp only [decode, decodeWith, h0, ht, if_false, reduceCtorEq, false_and, and_false]

/-- The clauses of a well-formed launch, as propositions (R5, R6, R8, R9). -/
theorem Config.wellFormed_iff {c : Config} :
    c.wellFormed = true ↔ 1 ≤ c.capacity ∧ c.capacity ≤ 2 ^ 32 - 1 ∧ c.entry.toNat % 4 = 0 ∧ c.image.length ≤ 512
      ∧ c.image.length ≤ c.capacity ∧ c.keys.wellFormed = true := by
  simp only [Config.wellFormed, Bool.and_eq_true, decide_eq_true_eq, and_assoc]

namespace Machine

/-- Loading leaves every byte outside the loaded range alone (R41). -/
theorem Memory.read_load_outside {m : Memory} (hm : wf m) {bytes : List Byte} {off a : Nat}
    (ha : a < off ∨ off + bytes.length ≤ a) : read (load m bytes off) a = read m a := by
  induction bytes generalizing m off with
  | nil => rfl
  | cons b bs ih =>
    rw [List.length_cons] at ha
    have hne : a ≠ off := by omega
    rw [load, ih (wf_write hm off b) (by omega), read_write hm, if_neg hne]

/-- Loading puts `bytes[i]` at `off + i` (R41). -/
theorem Memory.read_load_inside {m : Memory} (hm : wf m) {bytes : List Byte} {off i : Nat} (hi : i < bytes.length) :
    read (load m bytes off) (off + i) = bytes[i] := by
  induction bytes generalizing m off i with
  | nil => simp at hi
  | cons b bs ih =>
    have hwf := wf_write hm off b
    cases i with
    | zero => rw [load, read_load_outside hwf (by omega), read_write hm, Nat.add_zero, if_pos rfl, List.getElem_cons_zero]
    | succ j =>
      rw [List.length_cons] at hi
      rw [load, ← Nat.add_assoc, Nat.add_right_comm, ih hwf (by omega), List.getElem_cons_succ]

/-- After reset the memory holds the image (R150). -/
theorem read_launchMem_image {c : Config} {a : Nat} (ha : a < c.image.length) :
    (launchMem c).read a = c.image[a] := by
  rw [launchMem, ← Memory.read_load_inside (off := 0) Memory.wf_nil ha, Nat.zero_add]

/-- After reset every byte beyond the image is zero (R150). -/
theorem read_launchMem_beyond {c : Config} {a : Nat} (ha : c.image.length ≤ a) : (launchMem c).read a = 0 :=
  Memory.read_load_outside Memory.wf_nil (by omega)

end Machine
end Sys2Proof
end

section
/-! ## The registers: after reset, and under the index contract -/

namespace Sys2Proof.Machine

/-- After reset every register is zero but general register 1, the stack pointer (R35, R150). -/
theorem launch_reg (c : Config) (i : RegIdx) : (State.launch c).reg i = if i = 1 then c.stackInit else 0 := by
  simp [State.reg, launchRegs, Vector.getElem_set, Fin.ext_iff, eq_comm]

theorem readIndex_of_lt (s : State) {i : Nat} (h : i < 36) : s.readIndex i = .ok (s.reg ⟨i, h⟩) := dif_pos h

theorem readIndex_of_ge (s : State) {i : Nat} (h : 36 ≤ i) : s.readIndex i = .error .outOfBounds :=
  dif_neg (Nat.not_lt.2 h)

theorem writeIndex_of_lt (s : State) {i : Nat} (h : i < 36) (v : Word) :
    s.writeIndex i v = .ok (s.setReg ⟨i, h⟩ v) := dif_pos h

theorem writeIndex_of_ge (s : State) {i : Nat} (h : 36 ≤ i) (v : Word) : s.writeIndex i v = .error .outOfBounds :=
  dif_neg (Nat.not_lt.2 h)

/-- A register write is invisible to the contract at every other index. -/
theorem readIndex_setReg_other (s : State) (i : RegIdx) (v : Word) {j : Nat} (h : j ≠ i.val) :
    (s.setReg i v).readIndex j = s.readIndex j := by
  by_cases hj : j < 36
  · have hne : i ≠ ⟨j, hj⟩ := fun e => h (by rw [e])
    rw [readIndex_of_lt _ hj, readIndex_of_lt _ hj, State.reg_setReg_other _ _ _ _ hne]
  · rw [readIndex_of_ge _ (by omega), readIndex_of_ge _ (by omega)]

/-! ### The special registers -/

/-- The three selectors that name a special register (R100). -/
theorem sprSelect_eq_some {sel : BitVec 21} {r : RegIdx} :
    sprSelect sel = some r ↔
      (sel = 0x001001 ∧ r = 34) ∨ (sel = 0x001000 ∧ r = 33) ∨ (sel = 0x000001 ∧ r = 35) := by
  simp only [sprSelect]
  split_ifs with h1 h2 h3
  · simp [h1, eq_comm]
  · simp [h2, eq_comm]
  · simp [h3, eq_comm]
  · simp only [h1, h2, h3, false_and, or_self]

/-- A selector names no general register and not CR, which is register 32 (R23, R100). -/
theorem cr_lt_of_sprSelect {sel : BitVec 21} {r : RegIdx} (h : sprSelect sel = some r) : 32 < r := by
  obtain ⟨-, rfl⟩ | ⟨-, rfl⟩ | ⟨-, rfl⟩ := sprSelect_eq_some.1 h <;> decide

end Sys2Proof.Machine
end

section
/-! ## What an instruction does, and what a step and a run do -/

namespace Sys2Proof.Machine

/-- What the instruction makes of the state `s`: one rule per way its handler can end (R88, R95 to R97, R100, R105 to
R107, R110), with the guard of that way. `exec_eq_next` says that this is `exec`. -/
inductive Effect (s : State) : Instr → State → Prop
  | halt : Effect s .halt (s.raise .endOfProgram)
  | addi (fa fb : GprIdx) (imm : BitVec 16) :
      Effect s (.addi fa fb imm) (s.setGpr fa (addiResult s fb imm)).advance
  | lis (fa : GprIdx) (imm : BitVec 16) : Effect s (.lis fa imm) (s.setGpr fa (lisOperand imm)).advance
  | lwz (fa : GprIdx) {fb : GprIdx} {imm : BitVec 16} {b : Byte} (hb : s.memRead1 (lwzAddress s fb imm) = .ok b) :
      Effect s (.lwz fa fb imm) (s.setGpr fa (b.setWidth 32)).advance
  | lwzOutside (fa : GprIdx) {fb : GprIdx} {imm : BitVec 16}
      (hb : s.memRead1 (lwzAddress s fb imm) = .error .outOfBounds) :
      Effect s (.lwz fa fb imm) (s.raise .outOfBounds)
  | mtsprListed (fa : GprIdx) {sel : BitVec 21} {r : RegIdx} (hsel : sprSelect sel = some r) :
      Effect s (.mtspr fa sel) (s.setReg r (s.gpr fa)).advance
  | mtsprUnlisted (fa : GprIdx) {sel : BitVec 21} (hsel : sprSelect sel = none) : Effect s (.mtspr fa sel) s.advance
  | scWrite {bytes : List Byte} (hn : scNumber s = 4) (hb : s.memBytes (scStart s) (scLength s) = .ok bytes) :
      Effect s .sc (s.emit (.write (scArgument s) bytes)).advance
  | scWriteOutside (hn : scNumber s = 4) (hb : s.memBytes (scStart s) (scLength s) = .error .outOfBounds) :
      Effect s .sc (s.raise .outOfBounds)
  | scExit (hn : scNumber s = 1) : Effect s .sc (scExit s)
  | scOther (h4 : scNumber s ≠ 4) (h1 : scNumber s ≠ 1) : Effect s .sc s.advance

/-- Every instruction has one of the effects, from every state. -/
theorem effect_of_exec (i : Instr) (s : State) : ∃ t, exec i s = .next t ∧ Effect s i t := by
  cases i with
  | halt => exact ⟨_, rfl, .halt⟩
  | addi fa fb imm => exact ⟨_, rfl, .addi fa fb imm⟩
  | lis fa imm => exact ⟨_, rfl, .lis fa imm⟩
  | lwz fa fb imm =>
    refine ⟨_, rfl, ?_⟩
    cases hb : s.memRead1 (lwzAddress s fb imm) with
    | ok b => exact .lwz fa hb
    | error reason =>
      obtain ⟨-, rfl⟩ := memRead1_eq_error.1 hb
      exact .lwzOutside fa hb
  | mtspr fa sel =>
    refine ⟨_, rfl, ?_⟩
    cases hsel : sprSelect sel with
    | some r => exact .mtsprListed fa hsel
    | none => exact .mtsprUnlisted fa hsel
  | sc =>
    by_cases h4 : scNumber s = 4
    · refine ⟨scWrite s, if_pos h4, ?_⟩
      rw [scWrite]
      cases hb : s.memBytes (scStart s) (scLength s) with
      | ok bytes => exact .scWrite h4 hb
      | error reason =>
        obtain ⟨-, -, rfl⟩ := memBytes_eq_error.1 hb
        exact .scWriteOutside h4 hb
    · by_cases h1 : scNumber s = 1
      · exact ⟨scExit s, (if_neg h4).trans (if_pos h1), .scExit h1⟩
      · exact ⟨s.advance, (if_neg h4).trans (if_neg h1), .scOther h4 h1⟩

/-- Each rule gives what the instruction's handler gives under the rule's guard. -/
theorem exec_of_effect {i : Instr} {s t : State} (h : Effect s i t) : exec i s = .next t := by
  cases h with
  | halt | addi | lis => rfl
  | lwz fa hb | lwzOutside fa hb =>
    rw [exec, execLwz, hb]
    rfl
  | mtsprListed fa hsel | mtsprUnlisted fa hsel =>
    rw [exec, execMtspr, hsel]
    rfl
  | scWrite hn hb | scWriteOutside hn hb =>
    rw [exec, execSc, if_pos hn, scWrite, hb]
    rfl
  | scExit hn =>
    have h4 : scNumber s ≠ 4 := by rw [hn]; decide
    rw [exec, execSc, if_neg h4, if_pos hn]
  | scOther h4 h1 =>
    rw [exec, execSc, if_neg h4, if_neg h1]
    rfl

/-- The rules of `Effect` are the meaning of each instruction. -/
theorem exec_eq_next {i : Instr} {s t : State} : exec i s = .next t ↔ Effect s i t := by
  refine ⟨fun h => ?_, exec_of_effect⟩
  obtain ⟨u, hu, heff⟩ := effect_of_exec i s
  cases hu.symm.trans h
  exact heff

/-- A step runs only an instruction whose four bytes lie in memory (R81, R115). -/
theorem pc_add_four_le_of_fetchInstr {s : State} {i : Instr} (h : s.fetchInstr = .ok i) :
    s.pc.toNat + 4 ≤ s.cfg.capacity := by
  obtain ⟨w, hw, -⟩ := fetchInstr_eq_ok.1 h
  exact (memRead4_eq_ok.1 hw).1

/-- Every step with a next state is a condition raised before any handler, or one instruction's effect. -/
theorem step_effect {s t : State} (h : step s = .next t) :
    s.run = .running ∧
      ((∃ reason, s.fetchInstr = .error reason ∧ t = s.raise reason) ∨
       ∃ i, s.fetchInstr = .ok i ∧ Effect s i t) := by
  simpa only [exec_eq_next] using step_next_cases h

/-- The only fault is that of a state whose run has ended (R118). -/
theorem step_eq_fault {s : State} {f : Fault} :
    step s = .fault f ↔ ∃ reason, s.run = .halted reason ∧ f = .halted reason := by
  cases hr : s.run with
  | halted reason => simp [step, hr, eq_comm]
  | running =>
    cases hf : s.fetchInstr with
    | error reason => simp [step_of_error hr hf]
    | ok i =>
      obtain ⟨t, ht, -⟩ := effect_of_exec i s
      simp [step_of_ok hr hf, ht]

/-! ### Runs -/

theorem runSteps_succ_eq_next {k : Nat} {s t : State} :
    runSteps (k + 1) s = .next t ↔ ∃ u, step s = .next u ∧ runSteps k u = .next t := by
  cases h : step s <;> simp [runSteps, h]

theorem runSteps_succ_eq_fault {k : Nat} {s : State} {f : Fault} :
    runSteps (k + 1) s = .fault f ↔ step s = .fault f ∨ ∃ u, step s = .next u ∧ runSteps k u = .fault f := by
  cases h : step s <;> simp [runSteps, h]

end Sys2Proof.Machine
end

section
/-! ## The special registers never influence a run (R23, R103)

`SameButSpecial` is a simulation: each operation that an instruction is made of keeps it, so each effect has its like in
the other state. -/

namespace Sys2Proof.Machine.State.SameButSpecial

variable {s s' : State} (h : s.SameButSpecial s')
include h

/-! ### What the machine looks at is the same in both states -/

theorem addiResult_eq (fb : GprIdx) (imm : BitVec 16) : addiResult s fb imm = addiResult s' fb imm := by
  simp only [addiResult, h.gprs]

theorem lwzAddress_eq (fb : GprIdx) (imm : BitVec 16) : lwzAddress s fb imm = lwzAddress s' fb imm := by
  simp only [lwzAddress, h.gprs]

theorem scNumber_eq : scNumber s = scNumber s' := h.gprs 0

theorem scArgument_eq : scArgument s = scArgument s' := by
  simp only [scArgument, h.gprs]

theorem memRead1_eq (a : Nat) : s.memRead1 a = s'.memRead1 a := by
  simp only [State.memRead1, h.mem, h.cfg]

theorem scBuffer_eq : s.memBytes (scStart s) (scLength s) = s'.memBytes (scStart s') (scLength s') := by
  have hstart : scStart s = scStart s' := by simp only [scStart, h.gprs]
  have hlength : scLength s = scLength s' := by simp only [scLength, h.gprs]
  simp only [State.memBytes, hstart, hlength, h.mem, h.cfg]

theorem fetchInstr_eq : s.fetchInstr = s'.fetchInstr := by
  simp only [State.fetchInstr, State.fetchWord, State.memRead4, h.pc, h.mem, h.cfg]

/-! ### The operations keep the relation -/

theorem setGpr (r : GprIdx) (v : Word) : (s.setGpr r v).SameButSpecial (s'.setGpr r v) where
  gprs r' := by simp only [gpr_setGpr, h.gprs]
  pc := h.pc
  mem := h.mem
  run := h.run
  hostlog := h.hostlog
  cfg := h.cfg

/-- The values written to a special register need not agree. -/
theorem setReg_special {i : RegIdx} (hi : 32 ≤ i.val) (v v' : Word) :
    (s.setReg i v).SameButSpecial (s'.setReg i v') where
  gprs r := by rw [gpr_setReg_special _ _ _ _ hi, gpr_setReg_special _ _ _ _ hi, h.gprs]
  pc := h.pc
  mem := h.mem
  run := h.run
  hostlog := h.hostlog
  cfg := h.cfg

theorem advance : s.advance.SameButSpecial s'.advance where
  gprs := h.gprs
  pc := congrArg (· + 4) h.pc
  mem := h.mem
  run := h.run
  hostlog := h.hostlog
  cfg := h.cfg

theorem raise (reason : HaltReason) : (s.raise reason).SameButSpecial (s'.raise reason) where
  gprs := h.gprs
  pc := h.pc
  mem := h.mem
  run := rfl
  hostlog := h.hostlog
  cfg := h.cfg

theorem emit (q : HostRequest) : (s.emit q).SameButSpecial (s'.emit q) where
  gprs := h.gprs
  pc := h.pc
  mem := h.mem
  run := h.run
  hostlog := congrArg (· ++ [q]) h.hostlog
  cfg := h.cfg

/-! ### Instructions, steps and runs -/

/-- An instruction has the same effect on the other state, up to the special registers. -/
theorem effect {i : Instr} {t : State} (heff : Effect s i t) : ∃ t', Effect s' i t' ∧ t.SameButSpecial t' := by
  cases heff with
  | halt => exact ⟨_, .halt, h.raise _⟩
  | addi fa fb imm =>
    rw [h.addiResult_eq]
    exact ⟨_, .addi fa fb imm, (h.setGpr fa _).advance⟩
  | lis fa imm => exact ⟨_, .lis fa imm, (h.setGpr fa _).advance⟩
  | lwz fa hb =>
    rw [h.lwzAddress_eq, h.memRead1_eq] at hb
    exact ⟨_, .lwz fa hb, (h.setGpr fa _).advance⟩
  | lwzOutside fa hb =>
    rw [h.lwzAddress_eq, h.memRead1_eq] at hb
    exact ⟨_, .lwzOutside fa hb, h.raise _⟩
  | mtsprListed fa hsel =>
    exact ⟨_, .mtsprListed fa hsel, (h.setReg_special (cr_lt_of_sprSelect hsel).le _ _).advance⟩
  | mtsprUnlisted fa hsel => exact ⟨_, .mtsprUnlisted fa hsel, h.advance⟩
  | scWrite hn hb =>
    rw [h.scNumber_eq] at hn
    rw [h.scBuffer_eq] at hb
    rw [h.scArgument_eq]
    exact ⟨_, .scWrite hn hb, (h.emit _).advance⟩
  | scWriteOutside hn hb =>
    rw [h.scNumber_eq] at hn
    rw [h.scBuffer_eq] at hb
    exact ⟨_, .scWriteOutside hn hb, h.raise _⟩
  | scExit hn =>
    rw [h.scNumber_eq] at hn
    rw [Machine.scExit, h.scArgument_eq]
    exact ⟨_, .scExit hn, (h.emit _).raise _⟩
  | scOther h4 h1 =>
    rw [h.scNumber_eq] at h4 h1
    exact ⟨_, .scOther h4 h1, h.advance⟩

theorem step_next {t : State} (hs : step s = .next t) : ∃ t', step s' = .next t' ∧ t.SameButSpecial t' := by
  obtain ⟨hr, ⟨reason, hf, rfl⟩ | ⟨i, hf, heff⟩⟩ := step_effect hs
  all_goals
    rw [h.run] at hr
    rw [h.fetchInstr_eq] at hf
  · exact ⟨_, step_of_error hr hf, h.raise reason⟩
  · obtain ⟨t', heff', ht⟩ := h.effect heff
    exact ⟨t', (step_of_ok hr hf).trans (exec_eq_next.2 heff'), ht⟩

theorem step_fault {f : Fault} (hs : step s = .fault f) : step s' = .fault f := by
  rw [step_eq_fault, h.run] at hs
  exact step_eq_fault.2 hs

omit h

theorem runSteps_next {k : Nat} {t : State} (h : s.SameButSpecial s') (hs : runSteps k s = .next t) :
    ∃ t', runSteps k s' = .next t' ∧ t.SameButSpecial t' := by
  induction k generalizing s s' with
  | zero =>
    cases hs
    exact ⟨s', rfl, h⟩
  | succ k ih =>
    obtain ⟨u, hu, hk⟩ := runSteps_succ_eq_next.1 hs
    obtain ⟨u', hu', hsame⟩ := h.step_next hu
    obtain ⟨t', ht', ht⟩ := ih hsame hk
    exact ⟨t', runSteps_succ_eq_next.2 ⟨u', hu', ht'⟩, ht⟩

theorem runSteps_fault {k : Nat} {f : Fault} (h : s.SameButSpecial s') (hs : runSteps k s = .fault f) :
    runSteps k s' = .fault f := by
  induction k generalizing s s' with
  | zero => cases hs
  | succ k ih =>
    obtain hf | ⟨u, hu, hk⟩ := runSteps_succ_eq_fault.1 hs
    · exact runSteps_of_fault (h.step_fault hf) k
    · obtain ⟨u', hu', hsame⟩ := h.step_next hu
      rw [runSteps_of_next hu']
      exact ih hsame hk

end Sys2Proof.Machine.State.SameButSpecial

namespace Sys2Proof.Machine

/-- Settles O48: the simulation `SameButSpecial`, by induction on the number of steps. -/
theorem specialRegistersNeverInfluenceRun : Obligations.SpecialRegistersNeverInfluenceRun :=
  fun _ _ _ h => ⟨fun _ => h.runSteps_next, fun _ => h.runSteps_fault⟩

end Sys2Proof.Machine
end

section
/-! ## The invariant of a run (R25, R28, R30, R49, R53) -/

namespace Sys2Proof.Machine.State.Inv

variable {s : State} (h : s.Inv)
include h

/-- No running state has sent `Exit`: the last request is not one by `exitEnds`, the earlier ones by `exitLast`. -/
theorem no_exit_of_running (hr : s.run = .running) : ∀ q ∈ s.hostlog, q.isExit = false := by
  intro q hq
  obtain hnil | ⟨l, b, hl⟩ := List.eq_nil_or_concat' s.hostlog
  · simp [hnil] at hq
  · have hinit : ∀ q ∈ l, q.isExit = false := by simpa [hl] using h.exitLast
    have hlast : ∀ code, b ≠ .exit code := by simpa [hl, hr] using h.exitEnds
    rw [hl, List.mem_append, List.mem_singleton] at hq
    obtain hq | rfl := hq
    · exact hinit q hq
    · cases q with
      | write fd bytes => rfl
      | exit code => exact absurd rfl (hlast code)

/-! ### The operations keep the invariant -/

/-- A write of any register but CR. -/
theorem setReg {i : RegIdx} (hi : i ≠ 32) (v : Word) : (s.setReg i v).Inv where
  config := h.config
  memory := h.memory
  aligned := h.aligned
  forward := h.forward
  bounded := h.bounded
  condition := (reg_setReg_other s i 32 v hi).trans h.condition
  exitLast := h.exitLast
  exitEnds := h.exitEnds
  unimplemented := h.unimplemented

theorem setGpr (r : GprIdx) (v : Word) : (s.setGpr r v).Inv :=
  h.setReg (fun e => (gprIndex_lt r).ne (congrArg Fin.val e)) v

/-- The pc may advance from an instruction that lies in memory: the sum cannot wrap below `CAPACITY` (R5, R28). -/
theorem advance (hpc : s.pc.toNat + 4 ≤ s.cfg.capacity) : s.advance.Inv := by
  obtain ⟨-, hcap, -⟩ := Config.wellFormed_iff.1 h.config
  have hadd : s.advance.pc.toNat = s.pc.toNat + 4 := by
    rw [advance_pc, BitVec.toNat_add]
    exact Nat.mod_eq_of_lt (by change s.pc.toNat + 4 < 2 ^ 32; omega)
  have haligned := h.aligned
  have hforward := h.forward
  exact {
    config := h.config
    memory := h.memory
    aligned := by omega
    forward := by rw [advance_cfg]; omega
    bounded := .inr (by rw [advance_cfg]; omega)
    condition := h.condition
    exitLast := h.exitLast
    exitEnds := h.exitEnds
    unimplemented := h.unimplemented }

/-- A running state may send a write request. -/
theorem emit_write (hr : s.run = .running) (fd : Int) (bytes : List Byte) : (s.emit (.write fd bytes)).Inv where
  config := h.config
  memory := h.memory
  aligned := h.aligned
  forward := h.forward
  bounded := h.bounded
  condition := h.condition
  exitLast := by simpa using h.no_exit_of_running hr
  exitEnds := by simp [hr]
  unimplemented := h.unimplemented

/-- A running state may raise any condition but `HostExit`, if a key it carries is one the table has no entry for. -/
theorem raise (hr : s.run = .running) {reason : HaltReason} (hexit : ∀ code, reason ≠ .hostExit code)
    (hkey : ∀ key, reason = .unimplementedOpcode key →
      key ≠ 0 ∧ key.toNat % 4 = 0 ∧ opTable s.cfg.keys key = none) : (s.raise reason).Inv where
  config := h.config
  memory := h.memory
  aligned := h.aligned
  forward := h.forward
  bounded := h.bounded
  condition := h.condition
  exitLast := h.exitLast
  exitEnds := by simpa [hexit, hr] using h.exitEnds
  unimplemented := by simpa using hkey

/-- The exit call logs its one request last and ends the run with the same code (R107). -/
theorem scExit (hr : s.run = .running) : (scExit s).Inv where
  config := h.config
  memory := h.memory
  aligned := h.aligned
  forward := h.forward
  bounded := h.bounded
  condition := h.condition
  exitLast := by simpa [Machine.scExit] using h.no_exit_of_running hr
  exitEnds := by simp [Machine.scExit]
  unimplemented := by simp [Machine.scExit]

/-! ### Instructions and steps -/

/-- An instruction fetched from memory keeps the invariant. -/
theorem effect (hr : s.run = .running) (hpc : s.pc.toNat + 4 ≤ s.cfg.capacity) {i : Instr} {t : State}
    (heff : Effect s i t) : t.Inv := by
  cases heff with
  | halt => exact h.raise hr nofun nofun
  | addi fa | lis fa | lwz fa => exact (h.setGpr fa _).advance hpc
  | mtsprListed fa hsel => exact (h.setReg (cr_lt_of_sprSelect hsel).ne' _).advance hpc
  | mtsprUnlisted | scOther => exact h.advance hpc
  | scWrite => exact (h.emit_write hr _ _).advance hpc
  | lwzOutside | scWriteOutside => exact h.raise hr nofun nofun
  | scExit => exact h.scExit hr

/-- A condition raised before any handler keeps the invariant: the key it may carry is the one looked up (R134). -/
theorem raise_of_fetchInstr (hr : s.run = .running) {reason : HaltReason} (hf : s.fetchInstr = .error reason) :
    (s.raise reason).Inv := by
  obtain ⟨-, rfl⟩ | ⟨w, e, -, hd, rfl⟩ := fetchInstr_eq_error.1 hf
  · exact h.raise hr nofun nofun
  · obtain ⟨h0, htable, rfl⟩ := decode_eq_error.1 hd
    refine h.raise hr nofun ?_
    rintro key ⟨⟩
    exact ⟨h0, by rw [opKey_toNat]; omega, htable⟩

end Sys2Proof.Machine.State.Inv

namespace Sys2Proof.Machine

/-- Settles O49: the invariant is inductive, by the two ways a step can end. -/
theorem stepKeepsInvariant : Obligations.StepKeepsInvariant := by
  intro s t h hs
  obtain ⟨hr, ⟨reason, hf, rfl⟩ | ⟨i, hf, heff⟩⟩ := step_effect hs
  · exact h.raise_of_fetchInstr hr hf
  · exact h.effect hr (pc_add_four_le_of_fetchInstr hf) heff

/-- Settles O50: reset leaves CR zero, the log empty and the pc at the aligned entry. -/
theorem launchMeetsInvariant : Obligations.LaunchMeetsInvariant := by
  intro c hc
  obtain ⟨-, -, hentry, -⟩ := Config.wellFormed_iff.1 hc
  exact {
    config := hc
    memory := rfl
    aligned := hentry
    forward := le_rfl
    bounded := .inl rfl
    condition := (launch_reg c 32).trans (if_neg (by decide))
    exitLast := by simp
    exitEnds := by simp
    unimplemented := by simp }

/-- Settles O51: the reset state is the launch with the default configuration. -/
theorem resetMeetsInvariant : Obligations.ResetMeetsInvariant :=
  launchMeetsInvariant defaultConfig (by decide)

end Sys2Proof.Machine
end

section
/-! ## What each step does to the pc, the host log and the special registers -/

namespace Sys2Proof.Machine

/-- Settles O41, by the effects of the instructions. -/
theorem pcAdvancesByFourOrStays : Obligations.PcAdvancesByFourOrStays := by
  intro i s t h
  cases exec_eq_next.1 h with
  | halt => exact .inr ⟨rfl, .inl ⟨rfl, rfl⟩⟩
  | addi | lis | lwz | mtsprListed | mtsprUnlisted | scWrite | scOther => exact .inl ⟨rfl, rfl⟩
  | lwzOutside | scWriteOutside => exact .inr ⟨rfl, .inr (.inr rfl)⟩
  | scExit => exact .inr ⟨rfl, .inr (.inl ⟨rfl, _, rfl⟩)⟩

/-- Only `sc` appends to the log, and one request at most (R30). -/
theorem Effect.hostlog {s t : State} {i : Instr} (h : Effect s i t) :
    t.hostlog = s.hostlog ∨ (i = .sc ∧ ∃ q, t.hostlog = s.hostlog ++ [q]) := by
  cases h with
  | scWrite | scExit => exact .inr ⟨rfl, _, rfl⟩
  | halt | addi | lis | lwz | lwzOutside | mtsprListed | mtsprUnlisted | scWriteOutside | scOther => exact .inl rfl

/-- Settles O46: a condition raised before any handler logs nothing, and of the instructions only `sc` does. -/
theorem onlySystemCallsExtendLog : Obligations.OnlySystemCallsExtendLog := by
  intro s t h
  obtain ⟨-, ⟨reason, -, rfl⟩ | ⟨i, hf, heff⟩⟩ := step_effect h
  · exact .inl rfl
  · obtain hlog | ⟨rfl, hlog⟩ := heff.hostlog
    · exact .inl hlog
    · exact .inr ⟨hf, hlog⟩

/-- An instruction leaves a special register alone, or is the `mtspr` whose selector names it and writes its source
register there (R23, R100). -/
theorem Effect.special_reg {s t : State} {i : Instr} (h : Effect s i t) {j : RegIdx} (hj : 32 ≤ j.val) :
    t.reg j = s.reg j ∨ ∃ fa sel, i = .mtspr fa sel ∧ sprSelect sel = some j ∧ t.reg j = s.gpr fa := by
  cases h with
  | addi fa | lis fa | lwz fa => exact .inl (State.reg_setGpr_special s j fa _ hj)
  | @mtsprListed fa sel r hsel =>
    by_cases hr : r = j
    · subst hr
      exact .inr ⟨fa, sel, rfl, hsel, State.reg_setReg_same s r _⟩
    · exact .inl (State.reg_setReg_other s r j _ hr)
  | halt | lwzOutside | mtsprUnlisted | scWrite | scWriteOutside | scExit | scOther => exact .inl rfl

/-- A step leaves a special register alone, or runs the `mtspr` whose selector names it. -/
theorem step_special_reg {s t : State} (h : step s = .next t) {j : RegIdx} (hj : 32 ≤ j.val) :
    t.reg j = s.reg j ∨
      ∃ fa sel, s.fetchInstr = .ok (.mtspr fa sel) ∧ sprSelect sel = some j ∧ t.reg j = s.gpr fa := by
  obtain ⟨-, ⟨reason, -, rfl⟩ | ⟨i, hf, heff⟩⟩ := step_effect h
  · exact .inl rfl
  · obtain hsame | ⟨fa, sel, rfl, hsel, hval⟩ := heff.special_reg hj
    · exact .inl hsame
    · exact .inr ⟨fa, sel, hf, hsel, hval⟩

/-- Where one selector alone names a special register, a change of it comes from that selector. -/
theorem step_special_reg_of_selector {s t : State} (h : step s = .next t) {j : RegIdx} (hj : 32 ≤ j.val)
    {sel₀ : BitVec 21} (hsel₀ : ∀ sel, sprSelect sel = some j → sel = sel₀) :
    t.reg j = s.reg j ∨ ∃ fa, s.fetchInstr = .ok (.mtspr fa sel₀) ∧ t.reg j = s.gpr fa := by
  obtain hsame | ⟨fa, sel, hf, hsel, hval⟩ := step_special_reg h hj
  · exact .inl hsame
  · exact .inr ⟨fa, hsel₀ sel hsel ▸ hf, hval⟩

/-- Settles O47: no selector names CR, and one each names LR, CTR and XER. -/
theorem specialRegistersChangeByMtsprAlone : Obligations.SpecialRegistersChangeByMtsprAlone := by
  intro s t h
  refine ⟨?_, step_special_reg_of_selector h (j := 33) (by decide) ?_,
    step_special_reg_of_selector h (j := 34) (by decide) ?_, step_special_reg_of_selector h (j := 35) (by decide) ?_⟩
  · obtain hsame | ⟨-, sel, -, hsel, -⟩ := step_special_reg h (j := 32) (by decide)
    · exact hsame
    · exact absurd (cr_lt_of_sprSelect hsel) (by decide)
  all_goals
    intro sel hsel
    simpa using sprSelect_eq_some.1 hsel

end Sys2Proof.Machine
end

section
/-! ## Reset and the register file -/

namespace Sys2Proof.Machine

/-- Settles O2: the registers by `launch_reg`, the memory by what loading the image at 0 leaves. -/
theorem launchLeavesSpecValues : Obligations.LaunchLeavesSpecValues := by
  intro c hc
  obtain ⟨-, -, -, -, hfit, -⟩ := Config.wellFormed_iff.1 hc
  refine ⟨rfl, (launch_reg c 1).trans (if_pos rfl), fun i hi => (launch_reg c i).trans (if_neg hi), rfl, rfl, rfl,
    fun a ha => ?_, fun a ha hcap => ?_, fun a ha => ?_⟩
  · exact memRead1_eq_ok.2 ⟨ha.trans_le hfit, (read_launchMem_image ha).symm⟩
  · exact memRead1_eq_ok.2 ⟨hcap, (read_launchMem_beyond ha).symm⟩
  · exact memRead1_eq_error.2 ⟨ha, rfl⟩

/-- Settles O1: the default launch, whose image is empty. -/
theorem resetLeavesSpecValues : Obligations.ResetLeavesSpecValues := by
  obtain ⟨hpc, hr1, hregs, hrun, hlog, hcfg, -, hzero, -⟩ := launchLeavesSpecValues defaultConfig (by decide)
  exact ⟨hpc, hr1, hregs, hrun, hlog, congrArg Config.capacity hcfg, congrArg Config.keys hcfg,
    fun a ha => hzero a (Nat.zero_le a) ha⟩

/-- Settles O10: inside 0 to 35 the contract is the register read and write, outside it is `OutOfBounds`. -/
theorem registerFileContract : Obligations.RegisterFileContract := by
  intro s i v
  refine ⟨fun hi => ⟨readIndex_of_ge s hi, writeIndex_of_ge s hi v⟩, fun hi => ?_,
    fun r => readIndex_of_lt s (r.isLt.trans (by decide)), readIndex_of_lt s _, readIndex_of_lt s _,
    readIndex_of_lt s _, readIndex_of_lt s _⟩
  refine ⟨_, writeIndex_of_lt s hi v, ?_, fun j hj => readIndex_setReg_other s ⟨i, hi⟩ v hj, rfl, rfl, rfl, rfl, rfl⟩
  rw [readIndex_of_lt _ hi, State.reg_setReg_same]

end Sys2Proof.Machine
end

section
/-! ## Words and masked addresses as numbers (R45, R51) -/

namespace Sys2Proof

/-- Appended bit strings as a number: the left one stands above the right one. -/
theorem toNat_append_eq_add {m n : Nat} (x : BitVec m) (y : BitVec n) :
    (x ++ y).toNat = x.toNat * 2 ^ n + y.toNat := by
  rw [BitVec.toNat_append, ← Nat.shiftLeft_add_eq_or_of_lt y.isLt, Nat.shiftLeft_eq]

theorem composeBE_eq_append (b0 b1 b2 b3 : Byte) : composeBE b0 b1 b2 b3 = b0 ++ b1 ++ b2 ++ b3 := by
  apply BitVec.eq_of_getLsbD_eq
  intro i hi
  simp only [composeBE, BitVec.getLsbD_setWidth, BitVec.getLsbD_or, BitVec.getLsbD_shiftLeft, BitVec.getLsbD_append]
  interval_cases i <;> simp

/-- The big-endian value of four bytes (R45). -/
theorem composeBE_toNat (b0 b1 b2 b3 : Byte) :
    (composeBE b0 b1 b2 b3).toNat
      = b0.toNat * 2 ^ 24 + b1.toNat * 2 ^ 16 + b2.toNat * 2 ^ 8 + b3.toNat := by
  simp only [composeBE_eq_append, toNat_append_eq_add]
  omega

namespace Machine

/-- The mask of `lwz` keeps the low 28 bits. -/
theorem and_lwzMask_toNat (w : Word) : (w &&& lwzMask).toNat = w.toNat % 2 ^ 28 := by
  rw [BitVec.toNat_and, ← Nat.and_two_pow_sub_one_eq_mod]
  rfl

/-- The mask of `sc` keeps bits 27 to 20 and 15 to 0. -/
theorem and_scMask_eq_append (w : Word) :
    w &&& scMask = 0#4 ++ w.extractLsb' 20 8 ++ 0#4 ++ w.extractLsb' 0 16 := by
  apply BitVec.eq_of_getLsbD_eq
  intro i hi
  simp only [scMask, BitVec.getLsbD_and, BitVec.getLsbD_append, BitVec.getLsbD_extractLsb']
  interval_cases i <;> simp

theorem and_scMask_toNat (w : Word) :
    (w &&& scMask).toNat = w.toNat / 2 ^ 20 % 2 ^ 8 * 2 ^ 20 + w.toNat % 2 ^ 16 := by
  simp only [and_scMask_eq_append, toNat_append_eq_add, BitVec.extractLsb'_toNat, Nat.shiftRight_eq_div_pow,
    BitVec.toNat_ofNat]
  omega

end Machine
end Sys2Proof
end

section
/-! ## Memory: loading, writing and reading (R41, R42, R44 to R46, R51) -/

namespace Sys2Proof.Machine

theorem memWrite1_of_ge {s : State} {a : Nat} (h : s.cfg.capacity ≤ a) (v : Byte) :
    s.memWrite1 a v = .error .outOfBounds := if_pos h

theorem memWrite1_of_lt {s : State} {a : Nat} (h : a < s.cfg.capacity) (v : Byte) :
    s.memWrite1 a v = .ok { s with mem := s.mem.write a v } := if_neg (Nat.not_le.2 h)

/-- Settles O3: the addresses inside the loaded range and those outside it. -/
theorem loadImageWritesEachByte : Obligations.LoadImageWritesEachByte :=
  fun _ _ _ hm => ⟨fun _ => Memory.read_load_inside hm, fun _ => Memory.read_load_outside hm⟩

/-- Settles O6: the word read is the big-endian value of its four bytes, and the example is that value at one place. -/
theorem wordReadIsBigEndian : Obligations.WordReadIsBigEndian := by
  intro s a
  refine ⟨fun ha => memRead4_eq_error.2 ⟨ha, rfl⟩,
    fun ha => ⟨_, memRead4_eq_ok.2 ⟨ha, rfl⟩, composeBE_toNat _ _ _ _⟩, fun ha h0 h1 h2 h3 => ?_⟩
  have hexample : (0x3C200005 : Word) = composeBE 0x3C 0x20 0x00 0x05 := by decide
  exact memRead4_eq_ok.2 ⟨ha, by rw [h0, h1, h2, h3, hexample]⟩

/-- Settles O7: the buffer is the bytes of the range in address order. -/
theorem bufferReadIsCheckedWhole : Obligations.BufferReadIsCheckedWhole := by
  intro s a len
  refine ⟨fun hlen hout => memBytes_eq_error.2 ⟨hlen, hout, rfl⟩, ?_, fun hin => ?_⟩
  · rintro rfl
    exact memBytes_eq_ok.2 ⟨.inl rfl, rfl⟩
  · refine ⟨_, memBytes_eq_ok.2 ⟨.inr hin, rfl⟩, by simp, fun i hi => ?_⟩
    rw [List.getElem?_map, List.getElem?_range' hi, Nat.one_mul, Option.map_some]

/-- Settles O9: what each mask keeps; the displacement is added outside the mask. -/
theorem maskedAddressesAsNumbers : Obligations.MaskedAddressesAsNumbers :=
  fun _ _ imm => ⟨congrArg (· + imm.toNat) (and_lwzMask_toNat _), and_scMask_toNat _⟩

/-- Settles O4: what a checked write leaves to be read, and the fields it does not touch. -/
theorem writeByteWritesOneByte : Obligations.WriteByteWritesOneByte := by
  intro s a v hm
  refine ⟨fun ha => memWrite1_of_ge ha v, fun ha => ?_⟩
  have hwrite := memWrite1_of_lt ha v
  have hread := memRead1_memWrite1 hm hwrite
  exact ⟨_, hwrite, Memory.wf_write hm a v, (hread a).trans (if_pos rfl),
    fun b hb => (hread b).trans (if_neg hb), rfl, rfl, rfl, rfl, rfl⟩

/-- Settles O5: the two outcomes of a checked one-byte read. -/
theorem byteReadIsBoundsChecked : Obligations.ByteReadIsBoundsChecked :=
  fun _ _ => ⟨fun ha => memRead1_eq_error.2 ⟨ha, rfl⟩, fun ha => memRead1_eq_ok.2 ⟨ha, rfl⟩⟩

end Sys2Proof.Machine
end

section
/-! ## Memory and the configuration over a run (R31, R49, R53) -/

namespace Sys2Proof.Machine

/-- No instruction stores, and none changes the configuration (R31, R49). -/
theorem Effect.mem_cfg {s t : State} {i : Instr} (h : Effect s i t) : t.mem = s.mem ∧ t.cfg = s.cfg := by
  cases h with
  | halt | addi | lis | lwz | lwzOutside | mtsprListed | mtsprUnlisted | scWrite | scWriteOutside | scExit | scOther =>
    exact ⟨rfl, rfl⟩

/-- Settles O45: neither a condition raised before any handler nor an instruction changes them. -/
theorem stepKeepsMemoryAndConfiguration : Obligations.StepKeepsMemoryAndConfiguration := by
  intro s t h
  obtain ⟨-, ⟨reason, -, rfl⟩ | ⟨i, -, heff⟩⟩ := step_effect h
  · exact ⟨rfl, rfl⟩
  · exact heff.mem_cfg

/-- The memory after reset lists no address at or beyond the capacity when the image fits (R8). -/
theorem Memory.within_launchMem {c : Config} (h : c.image.length ≤ c.capacity) : within (launchMem c) c.capacity :=
  within_load (fun _ hc => absurd hc List.not_mem_nil) (by omega)

/-- Settles O52: memory is still what reset left, the loaded image. -/
theorem invariantFixesMemory : Obligations.InvariantFixesMemory := by
  intro s h
  obtain ⟨-, -, -, -, hfit, -⟩ := Config.wellFormed_iff.1 h.config
  rw [h.memory]
  refine ⟨Memory.wf_launchMem _, Memory.within_launchMem hfit, fun a ha => ?_, fun a => read_launchMem_beyond⟩
  rw [memRead1_eq_ok, h.memory]
  exact ⟨ha.trans_le hfit, (read_launchMem_image ha).symm⟩

end Sys2Proof.Machine
end

section
/-! ## The fields of a word (R60 to R65, R70) -/

namespace Sys2Proof

theorem fieldPO_toNat (w : Word) : (fieldPO w).toNat = w.toNat / 2 ^ 26 := by
  have := w.isLt
  rw [fieldPO, BitVec.extractLsb'_toNat, Nat.shiftRight_eq_div_pow]
  omega

theorem fieldFA_val (w : Word) : (fieldFA w).val = w.toNat / 2 ^ 21 % 32 := by
  rw [← Nat.shiftRight_eq_div_pow]
  exact BitVec.extractLsb'_toNat 21 5 w

theorem fieldFB_val (w : Word) : (fieldFB w).val = w.toNat / 2 ^ 16 % 32 := by
  rw [← Nat.shiftRight_eq_div_pow]
  exact BitVec.extractLsb'_toNat 16 5 w

theorem fieldIMM_toNat (w : Word) : (fieldIMM w).toNat = w.toNat % 65536 := BitVec.extractLsb'_toNat 0 16 w

theorem fieldSEL_toNat (w : Word) : (fieldSEL w).toNat = w.toNat % 2 ^ 21 := BitVec.extractLsb'_toNat 0 21 w

/-- Settles O11: each field is a quotient of the word cut to the field's width. -/
theorem fieldsOfWordAsNumbers : Obligations.FieldsOfWordAsNumbers :=
  fun w => ⟨fieldPO_toNat w, opKey_toNat w, fieldFA_val w, fieldFB_val w, fieldIMM_toNat w, fieldSEL_toNat w⟩

theorem opKey_mod_four (w : Word) : (opKey w).toNat % 4 = 0 := by
  rw [opKey_toNat, Nat.mul_mod_right]

/-- A word is put together again from its key and its fields. -/
theorem enc_fields (w : Word) : enc (opKey w) (fieldFA w) (fieldFB w) (fieldIMM w) = w := by
  apply BitVec.eq_of_toNat_eq
  rw [enc_toNat (opKey_mod_four w), opKey_toNat, fieldFA_val, fieldFB_val, fieldIMM_toNat]
  omega

theorem encSel_fields (w : Word) : encSel (opKey w) (fieldFA w) (fieldSEL w) = w := by
  apply BitVec.eq_of_toNat_eq
  rw [encSel_toNat (opKey_mod_four w), opKey_toNat, fieldFA_val, fieldSEL_toNat]
  omega

/-! ### The fields of a masked word -/

theorem and_allBits (w : Word) : w &&& 0xFFFFFFFF = w := BitVec.and_allOnes

/-- A mask that keeps bits 31 to 26 keeps the key (R61). -/
theorem opKey_and {m : Word} (hm : (m >>> 24) &&& 0xFC#32 = 0xFC#32) (w : Word) : opKey (w &&& m) = opKey w := by
  rw [opKey, BitVec.ushiftRight_and_distrib, BitVec.and_assoc, hm, opKey]

/-- No ignored bit lies in the key (R68). -/
theorem opKey_and_usedBits (w : Word) (i : Instr) : opKey (w &&& usedBits i) = opKey w := by
  cases i with
  | halt | sc => exact opKey_and (m := 0xFC000000) (by decide) w
  | lis => exact opKey_and (m := 0xFFE0FFFF) (by decide) w
  | addi | mtspr | lwz => exact congrArg opKey (and_allBits w)

/-- A mask with every bit of a field set keeps the field. -/
theorem extractLsb'_and_of_allOnes {m : Word} {lo len : Nat} (hm : m.extractLsb' lo len = BitVec.allOnes len)
    (w : Word) : (w &&& m).extractLsb' lo len = w.extractLsb' lo len := by
  rw [BitVec.extractLsb'_and, hm, BitVec.and_allOnes]

/-- A mask with every bit of a field clear clears the field. -/
theorem extractLsb'_and_of_zero {m : Word} {lo len : Nat} (hm : m.extractLsb' lo len = 0#len) (w : Word) :
    (w &&& m).extractLsb' lo len = 0#len := by
  rw [BitVec.extractLsb'_and, hm, BitVec.and_zero]

theorem fieldFA_and_lisBits (w : Word) : fieldFA (w &&& 0xFFE0FFFF) = fieldFA w :=
  congrArg gprOfField (extractLsb'_and_of_allOnes (by decide) w)

theorem fieldIMM_and_lisBits (w : Word) : fieldIMM (w &&& 0xFFE0FFFF) = fieldIMM w :=
  extractLsb'_and_of_allOnes (by decide) w

/-- Clearing the field `FB`, which `lis` ignores. -/
theorem and_lisBits_eq_enc (w : Word) : w &&& 0xFFE0FFFF = enc (opKey w) (fieldFA w) 0 (fieldIMM w) := by
  have hkey : opKey (w &&& 0xFFE0FFFF) = opKey w := opKey_and (by decide) w
  have hfb : fieldFB (w &&& 0xFFE0FFFF) = 0 := congrArg gprOfField (extractLsb'_and_of_zero (by decide) w)
  rw [← enc_fields (w &&& 0xFFE0FFFF), hkey, fieldFA_and_lisBits, hfb, fieldIMM_and_lisBits]

/-- Clearing every field but the key, as `sc` and the halt opcode ignore them. -/
theorem and_keyBits_eq_enc (w : Word) : w &&& 0xFC000000 = enc (opKey w) 0 0 0 := by
  have hkey : opKey (w &&& 0xFC000000) = opKey w := opKey_and (by decide) w
  have hfa : fieldFA (w &&& 0xFC000000) = 0 := congrArg gprOfField (extractLsb'_and_of_zero (by decide) w)
  have hfb : fieldFB (w &&& 0xFC000000) = 0 := congrArg gprOfField (extractLsb'_and_of_zero (by decide) w)
  have himm : fieldIMM (w &&& 0xFC000000) = 0 := extractLsb'_and_of_zero (by decide) w
  rw [← enc_fields (w &&& 0xFC000000), hkey, hfa, hfb, himm]

end Sys2Proof
end

section
/-! ## The opcode table and the decoder (R9, R67 to R70, R83, R84) -/

namespace Sys2Proof

/-- The clauses of a well-formed key map, as propositions (R9). -/
theorem OpKeys.wellFormed_iff {k : OpKeys} :
    k.wellFormed = true ↔ k.toList.Nodup ∧ (∀ b ∈ k.toList, b.toNat % 4 = 0) ∧ ∀ b ∈ k.toList, b ≠ 0 := by
  simp only [wellFormed, Bool.and_eq_true, decide_eq_true_eq, List.all_eq_true, beq_iff_eq, bne_iff_ne, and_assoc]

/-- The key at which a key map registers a handler (R84). -/
def OpKeys.keyOf (k : OpKeys) : Handler → Byte
  | .addi => k.addi
  | .lis => k.lis
  | .sc => k.sc
  | .mtspr => k.mtspr
  | .lwz => k.lwz

theorem OpKeys.keyOf_mem (k : OpKeys) (h : Handler) : k.keyOf h ∈ k.toList := by
  cases h with
  | addi | lis | sc | mtspr | lwz => simp [keyOf, toList]

/-- A handler that the table names is registered at the key. -/
theorem eq_keyOf_of_opTable {k : OpKeys} {key : Byte} {h : Handler} (ht : opTable k key = some h) :
    key = k.keyOf h := by
  unfold opTable at ht
  split_ifs at ht with hkey hkey hkey hkey hkey <;>
  · cases ht
    exact hkey

/-- The keys of a well-formed map are different, so that each handler is found at its key. -/
theorem opTable_keyOf {k : OpKeys} (hk : k.wellFormed = true) (h : Handler) : opTable k (k.keyOf h) = some h := by
  obtain ⟨hnodup, -, -⟩ := OpKeys.wellFormed_iff.1 hk
  simp only [OpKeys.toList, List.nodup_cons, List.mem_cons, List.not_mem_nil, or_false, not_or] at hnodup
  obtain ⟨⟨hlisAddi, hlisLwz, hlisMtspr, hlisSc⟩, ⟨haddiLwz, haddiMtspr, haddiSc⟩, ⟨hlwzMtspr, hlwzSc⟩,
    hmtsprSc, -⟩ := hnodup
  cases h with
  | addi => simp [opTable, OpKeys.keyOf]
  | lis => simp [opTable, OpKeys.keyOf, hlisAddi]
  | sc => simp [opTable, OpKeys.keyOf, Ne.symm haddiSc, Ne.symm hlisSc]
  | mtspr => simp [opTable, OpKeys.keyOf, Ne.symm haddiMtspr, Ne.symm hlisMtspr, hmtsprSc]
  | lwz => simp [opTable, OpKeys.keyOf, Ne.symm haddiLwz, Ne.symm hlisLwz, hlwzSc, hlwzMtspr]

/-- A key has no entry exactly when no handler is registered at it. -/
theorem opTable_eq_none {k : OpKeys} {key : Byte} :
    opTable k key = none ↔
      ¬ key = k.addi ∧ ¬ key = k.lis ∧ ¬ key = k.sc ∧ ¬ key = k.mtspr ∧ ¬ key = k.lwz := by
  simp only [opTable, ite_eq_iff, reduceCtorEq, and_false, false_or, and_true]

/-- A word is an instruction when its key is 0, which is the halt opcode, or is in the table. -/
theorem decode_eq_ok {k : OpKeys} {w : Word} {i : Instr} :
    decode k w = .ok i ↔
      (opKey w = 0 ∧ i = .halt) ∨
      (opKey w ≠ 0 ∧ ∃ h, opTable k (opKey w) = some h ∧ i = decodeOperands h w) := by
  by_cases h0 : opKey w = 0
  · simp [decode, decodeWith, h0, eq_comm]
  · cases ht : opTable k (opKey w) with
    | none =>
      simp only [decode, decodeWith, h0, ht, if_false, reduceCtorEq, false_and, exists_false, and_false, or_false]
    | some h =>
      simp only [decode, decodeWith, h0, ht, if_false, Except.ok.injEq, false_and, false_or, ne_eq, not_false_eq_true,
        true_and, Option.some.injEq, exists_eq_left']
      exact eq_comm

theorem decode_of_opKey_eq_zero {w : Word} (h0 : opKey w = 0) (k : OpKeys) : decode k w = .ok .halt :=
  decode_eq_ok.2 (.inl ⟨h0, rfl⟩)

/-- Under a well-formed key map a word with a handler's key is that handler's instruction. -/
theorem decode_of_opKey_eq_keyOf {k : OpKeys} {w : Word} {h : Handler} (hk : k.wellFormed = true)
    (hkey : opKey w = k.keyOf h) : decode k w = .ok (decodeOperands h w) := by
  obtain ⟨-, -, hne⟩ := OpKeys.wellFormed_iff.1 hk
  refine decode_eq_ok.2 (.inr ⟨?_, h, ?_, rfl⟩)
  · rw [hkey]
    exact hne _ (k.keyOf_mem h)
  · rw [hkey, opTable_keyOf hk]

/-! ### Decoding what was encoded -/

section

variable {key : Byte} (h : key.toNat % 4 = 0) (fa fb : GprIdx) (imm : BitVec 16) (sel : BitVec 21)
include h

theorem decodeOperands_addi_enc : decodeOperands .addi (enc key fa fb imm) = .addi fa fb imm := by
  rw [decodeOperands, fieldFA_enc h, fieldFB_enc, fieldIMM_enc]

theorem decodeOperands_lwz_enc : decodeOperands .lwz (enc key fa fb imm) = .lwz fa fb imm := by
  rw [decodeOperands, fieldFA_enc h, fieldFB_enc, fieldIMM_enc]

theorem decodeOperands_lis_enc : decodeOperands .lis (enc key fa fb imm) = .lis fa imm := by
  rw [decodeOperands, fieldFA_enc h, fieldIMM_enc]

theorem decodeOperands_mtspr_encSel : decodeOperands .mtspr (encSel key fa sel) = .mtspr fa sel := by
  rw [decodeOperands, fieldFA_encSel h, fieldSEL_encSel]

end

/-- The canonical word of an instruction has the instruction's key, and its handler reads back the operands (R70). -/
theorem decode_encode {k : OpKeys} (hk : k.wellFormed = true) (i : Instr) : decode k (encode k i) = .ok i := by
  obtain ⟨-, hmod, -⟩ := OpKeys.wellFormed_iff.1 hk
  cases i with
  | halt => exact decode_of_opKey_eq_zero (Laws.EncodeKey.halt k hmod) k
  | addi fa fb imm =>
    rw [decode_of_opKey_eq_keyOf (h := .addi) hk (Laws.EncodeKey.addi fa fb imm k hmod), encode,
      decodeOperands_addi_enc (hmod k.addi (k.keyOf_mem .addi))]
  | lis fa imm =>
    rw [decode_of_opKey_eq_keyOf (h := .lis) hk (Laws.EncodeKey.lis fa imm k hmod), encode,
      decodeOperands_lis_enc (hmod k.lis (k.keyOf_mem .lis))]
  | sc => rw [decode_of_opKey_eq_keyOf (h := .sc) hk (Laws.EncodeKey.sc k hmod), decodeOperands]
  | mtspr fa sel =>
    rw [decode_of_opKey_eq_keyOf (h := .mtspr) hk (Laws.EncodeKey.mtspr fa sel k hmod), encode,
      decodeOperands_mtspr_encSel (hmod k.mtspr (k.keyOf_mem .mtspr))]
  | lwz fa fb imm =>
    rw [decode_of_opKey_eq_keyOf (h := .lwz) hk (Laws.EncodeKey.lwz fa fb imm k hmod), encode,
      decodeOperands_lwz_enc (hmod k.lwz (k.keyOf_mem .lwz))]

/-- The bytes of a word, as memory holds them, decode as the word does; what follows them stays (R45). -/
theorem decodeBytes_wordBytes_append {k : OpKeys} {w : Word} {i : Instr} (h : decode k w = .ok i) (rest : List Byte) :
    decodeBytes k (wordBytes w ++ rest) = .ok (i, rest) := by
  simp only [wordBytes, List.cons_append, List.nil_append, decodeBytes, composeBE_wordBytes, h]

/-- Settles O14: on the canonical word, and on its bytes. -/
theorem decodeOfEncodeIsIdentity : Obligations.DecodeOfEncodeIsIdentity :=
  fun _ i rest hk => ⟨decode_encode hk i, decodeBytes_wordBytes_append (decode_encode hk i) rest⟩

/-! ### Ignored bits -/

/-- The bits that a handler's operands and its key occupy (R68). -/
def Handler.usedBits : Handler → Word
  | .addi | .mtspr | .lwz => 0xFFFFFFFF
  | .lis => 0xFFE0FFFF
  | .sc => 0xFC000000

/-- The used bits of a decoded instruction are those of its handler, whatever the word. -/
theorem usedBits_decodeOperands (h : Handler) (w : Word) : usedBits (decodeOperands h w) = h.usedBits := by
  cases h with
  | addi | lis | sc | mtspr | lwz => rfl

/-- A handler reads its operands from its used bits. -/
theorem decodeOperands_and_usedBits (h : Handler) (w : Word) :
    decodeOperands h (w &&& h.usedBits) = decodeOperands h w := by
  cases h with
  | addi | mtspr | lwz => exact congrArg _ (and_allBits w)
  | lis => rw [Handler.usedBits, decodeOperands, fieldFA_and_lisBits, fieldIMM_and_lisBits, decodeOperands]
  | sc => rfl

/-- Settles O16: neither the key nor an operand reads an ignored bit. -/
theorem ignoredBitsDoNotMatter : Obligations.IgnoredBitsDoNotMatter := by
  intro k w w' i hdec hbits
  have hkey : opKey w' = opKey w := by rw [← opKey_and_usedBits w' i, hbits, opKey_and_usedBits]
  rw [decode_eq_ok, hkey]
  refine (decode_eq_ok.1 hdec).imp_right ?_
  rintro ⟨h0, h, ht, rfl⟩
  rw [usedBits_decodeOperands] at hbits
  refine ⟨h0, h, ht, ?_⟩
  rw [← decodeOperands_and_usedBits h w', hbits, decodeOperands_and_usedBits]

/-- Encoding what a handler read gives the word back with the ignored bits clear. -/
theorem encode_decodeOperands {k : OpKeys} {w : Word} {h : Handler} (hkey : opKey w = k.keyOf h) :
    encode k (decodeOperands h w) = w &&& h.usedBits := by
  cases h with
  | addi | lwz => exact (congrArg (enc · _ _ _) hkey.symm).trans ((enc_fields w).trans (and_allBits w).symm)
  | mtspr => exact (congrArg (encSel · _ _) hkey.symm).trans ((encSel_fields w).trans (and_allBits w).symm)
  | lis => exact (congrArg (enc · _ _ _) hkey.symm).trans (and_lisBits_eq_enc w).symm
  | sc => exact (congrArg (enc · _ _ _) hkey.symm).trans (and_keyBits_eq_enc w).symm

/-- Settles O15: the halt opcode keeps its zero key, and a handler's operands are put back where they were read. -/
theorem encodeOfDecodeClearsIgnoredBits : Obligations.EncodeOfDecodeClearsIgnoredBits := by
  intro k w i _ hdec
  obtain ⟨h0, rfl⟩ | ⟨-, h, ht, rfl⟩ := decode_eq_ok.1 hdec
  · have hzero : encode k .halt = enc 0 0 0 0 := (by decide : (0 : Word) = enc 0 0 0 0)
    rw [hzero, ← h0]
    exact (and_keyBits_eq_enc w).symm
  · rw [usedBits_decodeOperands, encode_decodeOperands (eq_keyOf_of_opTable ht)]

/-! ### The words of this hardware -/

/-- A key names one primary opcode (R61). -/
theorem opKey_eq_ofNat_iff {w : Word} {po : Nat} (hpo : po < 64) :
    opKey w = BitVec.ofNat 8 (4 * po) ↔ w.toNat / 2 ^ 26 = po := by
  rw [← BitVec.toNat_inj, opKey_toNat, BitVec.toNat_ofNat]
  omega

theorem opKey_eq_ofNat (w : Word) : opKey w = BitVec.ofNat 8 (4 * (w.toNat / 2 ^ 26)) := by
  have := w.isLt
  exact (opKey_eq_ofNat_iff (by omega)).2 rfl

/-- The primary opcodes that this hardware refuses (R69). -/
theorem refused_iff_primary_opcode (w : Word) :
    (opKey w ≠ 0 ∧ opTable defaultKeys (opKey w) = none) ↔ w.toNat / 2 ^ 26 ∉ [0, 14, 15, 17, 31, 32] := by
  have hhalt : opKey w = 0 ↔ w.toNat / 2 ^ 26 = 0 := opKey_eq_ofNat_iff (po := 0) (by decide)
  have haddi : opKey w = defaultKeys.addi ↔ w.toNat / 2 ^ 26 = 14 := opKey_eq_ofNat_iff (po := 14) (by decide)
  have hlis : opKey w = defaultKeys.lis ↔ w.toNat / 2 ^ 26 = 15 := opKey_eq_ofNat_iff (po := 15) (by decide)
  have hsc : opKey w = defaultKeys.sc ↔ w.toNat / 2 ^ 26 = 17 := opKey_eq_ofNat_iff (po := 17) (by decide)
  have hmtspr : opKey w = defaultKeys.mtspr ↔ w.toNat / 2 ^ 26 = 31 := opKey_eq_ofNat_iff (po := 31) (by decide)
  have hlwz : opKey w = defaultKeys.lwz ↔ w.toNat / 2 ^ 26 = 32 := opKey_eq_ofNat_iff (po := 32) (by decide)
  simp only [opTable_eq_none, ne_eq, hhalt, haddi, hlis, hsc, hmtspr, hlwz, List.mem_cons, List.not_mem_nil, or_false,
    not_or]

/-- Settles O13: each listed primary opcode is the key of a handler, and the others are refused. -/
theorem everyWordIsClassified : Obligations.EveryWordIsClassified := by
  intro w po
  have hwf : defaultKeys.wellFormed = true := by decide
  have hkey {n : Nat} (hn : n < 64) (h : po = n) : opKey w = BitVec.ofNat 8 (4 * n) := (opKey_eq_ofNat_iff hn).2 h
  split_ifs with hhalt haddi hlis hsc hmtspr hlwz
  · exact decode_of_opKey_eq_zero (hkey (n := 0) (by decide) hhalt) _
  · exact decode_of_opKey_eq_keyOf (h := .addi) hwf (hkey (by decide) haddi)
  · exact decode_of_opKey_eq_keyOf (h := .lis) hwf (hkey (by decide) hlis)
  · exact decode_of_opKey_eq_keyOf (h := .sc) hwf (hkey (by decide) hsc)
  · exact decode_of_opKey_eq_keyOf (h := .mtspr) hwf (hkey (by decide) hmtspr)
  · exact decode_of_opKey_eq_keyOf (h := .lwz) hwf (hkey (by decide) hlwz)
  · have hnot : po ∉ [0, 14, 15, 17, 31, 32] := by simp [hhalt, haddi, hlis, hsc, hmtspr, hlwz]
    obtain ⟨h0, ht⟩ := (refused_iff_primary_opcode w).2 hnot
    exact decode_eq_error.2 ⟨h0, ht, congrArg _ (opKey_eq_ofNat w).symm⟩

/-- Settles O17: which primary opcodes are refused, and the count of them among the 64. -/
theorem fiftyEightKeysAreUnimplemented : Obligations.FiftyEightKeysAreUnimplemented := by
  refine ⟨fun w => ?_, by decide⟩
  rw [← refused_iff_primary_opcode]
  constructor
  · rintro ⟨key, h⟩
    obtain ⟨h0, ht, -⟩ := decode_eq_error.1 h
    exact ⟨h0, ht⟩
  · rintro ⟨h0, ht⟩
    exact ⟨opKey w, decode_eq_error.2 ⟨h0, ht, rfl⟩⟩

end Sys2Proof
end

section
/-! ## The assembler (R70 to R72) -/

namespace Sys2Proof

/-! ### The canonical words of this hardware as numbers -/

section

variable (fa fb : GprIdx) (imm : BitVec 16) (sel : BitVec 21)

theorem encode_addi_toNat :
    (encode defaultKeys (.addi fa fb imm)).toNat = 0x38000000 + fa.val * 2 ^ 21 + fb.val * 2 ^ 16 + imm.toNat := by
  rw [encode, enc_toNat (by decide)]
  simp [defaultKeys]

theorem encode_lwz_toNat :
    (encode defaultKeys (.lwz fa fb imm)).toNat = 0x80000000 + fa.val * 2 ^ 21 + fb.val * 2 ^ 16 + imm.toNat := by
  rw [encode, enc_toNat (by decide)]
  simp [defaultKeys]

theorem encode_lis_toNat :
    (encode defaultKeys (.lis fa imm)).toNat = 0x3C000000 + fa.val * 2 ^ 21 + imm.toNat := by
  rw [encode, enc_toNat (by decide)]
  simp [defaultKeys]

theorem encode_mtspr_toNat :
    (encode defaultKeys (.mtspr fa sel)).toNat = 0x7C000000 + fa.val * 2 ^ 21 + sel.toNat := by
  rw [encode, encSel_toNat (by decide)]
  simp [defaultKeys]

end

/-! ### Lines in range -/

/-- A line in range stands for the canonical word of its instruction. -/
theorem assemble_map_toNat {k : OpKeys} {x : Asm} {i : Instr} {n : Nat} (hi : asmInstr x = some i)
    (hn : (encode k i).toNat = n) : (assemble k x).map BitVec.toNat = some n := by
  rw [assemble, hi, Option.map_some, Option.map_some, hn]

/-- Settles O54: each line in range is an instruction, whose canonical word is known as a number. -/
theorem plainAssemblerLinesAsWords : Obligations.PlainAssemblerLinesAsWords := by
  refine ⟨by decide, by decide, fun a imm ha himm => ?_, fun a b imm ha hb hb0 himm => ?_,
    fun a imm b ha himm hb => ?_, fun sel a hsel ha => ?_⟩
  · refine assemble_map_toNat (if_pos (by simp [Asm.wellFormed, ha, himm])) ?_
    rw [encode_lis_toNat, asmGpr_val ha, BitVec.toNat_ofNat, Nat.mod_eq_of_lt himm]
  · refine assemble_map_toNat (if_pos (by simp [Asm.wellFormed, ha, hb, hb0, himm])) ?_
    rw [encode_addi_toNat, asmGpr_val ha, asmGpr_val hb, BitVec.toNat_ofNat, Nat.mod_eq_of_lt himm]
  · refine assemble_map_toNat (if_pos (by simp [Asm.wellFormed, ha, himm, hb])) ?_
    rw [encode_lwz_toNat, asmGpr_val ha, asmGpr_val hb, BitVec.toNat_ofNat, Nat.mod_eq_of_lt himm]
  · refine assemble_map_toNat (if_pos (by simp only [Asm.wellFormed, hsel, ha, decide_true, Bool.and_self])) ?_
    rw [encode_mtspr_toNat, asmGpr_val ha, BitVec.toNat_ofNat, Nat.mod_eq_of_lt hsel]

/-- The moves to a special register, by the selector that the pseudo-instruction stands for. -/
theorem assemble_move_toNat {x : Asm} {a n : Nat} {sel : BitVec 21} (ha : a < 32)
    (hi : asmInstr x = some (.mtspr (asmGpr a) sel)) (hn : 0x7C000000 + sel.toNat = n) :
    (assemble defaultKeys x).map BitVec.toNat = some (n + a * 2 ^ 21) :=
  assemble_map_toNat hi (by rw [encode_mtspr_toNat, asmGpr_val ha, Nat.add_right_comm, hn])

/-- Settles O19: `li` is `addi` with no base register, the others are moves to a special register. -/
theorem pseudoInstructionExpansions : Obligations.PseudoInstructionExpansions := by
  refine ⟨fun a imm ha himm => ?_, fun a ha => ?_, by decide⟩
  · refine assemble_map_toNat (if_pos (by simp [Asm.wellFormed, ha, himm])) ?_
    rw [encode_addi_toNat, asmGpr_val ha, BitVec.toNat_ofNat, Nat.mod_eq_of_lt himm, Fin.val_zero, Nat.zero_mul,
      Nat.add_zero]
  · have hwf : decide (a < 32) = true := decide_eq_true ha
    have hctr : asmInstr (.mtctr a) = some (.mtspr (asmGpr a) 0x1001) := if_pos hwf
    have hlr : asmInstr (.mtlr a) = some (.mtspr (asmGpr a) 0x1000) := if_pos hwf
    have hxer : asmInstr (.mtxer a) = some (.mtspr (asmGpr a) 0x0001) := if_pos hwf
    exact ⟨assemble_move_toNat ha hctr (by decide), assemble_move_toNat ha hlr (by decide),
      assemble_move_toNat ha hxer (by decide)⟩

/-! ### Lines out of range -/

/-- The operands that R70 and R71 do not allow in a line. -/
def Asm.OutOfRange : Asm → Prop
  | .halt | .sc | .nop => False
  | .lis a imm | .li a imm => 32 ≤ a ∨ 65536 ≤ imm
  | .addi a b imm => 32 ≤ a ∨ 32 ≤ b ∨ b = 0 ∨ 65536 ≤ imm
  | .lwz a imm b => 32 ≤ a ∨ 65536 ≤ imm ∨ 32 ≤ b
  | .mtspr sel a => 2 ^ 21 ≤ sel ∨ 32 ≤ a
  | .mtctr a | .mtlr a | .mtxer a => 32 ≤ a

theorem Asm.wellFormed_eq_false_iff (x : Asm) : x.wellFormed = false ↔ x.OutOfRange := by
  cases x with
  | halt | sc | nop => simp [wellFormed, OutOfRange]
  | lis | li | addi | lwz | mtspr | mtctr | mtlr | mtxer =>
    simp only [wellFormed, OutOfRange, Bool.and_eq_false_iff, decide_eq_false_iff_not, not_lt, not_not, ne_eq, or_assoc]

theorem assemble_eq_none_iff (k : OpKeys) (x : Asm) : assemble k x = none ↔ x.OutOfRange := by
  rw [assemble, Option.map_eq_none_iff, asmInstr_eq_none_iff, Asm.wellFormed_eq_false_iff]

/-- Settles O55: one clause for each form of a line. -/
theorem assemblerRefusesLinesOutOfRange : Obligations.AssemblerRefusesLinesOutOfRange := fun k a b imm sel =>
  ⟨(assemble_eq_none_iff k .halt).1, (assemble_eq_none_iff k .sc).1, (assemble_eq_none_iff k .nop).1,
    assemble_eq_none_iff k (.lis a imm), assemble_eq_none_iff k (.addi a b imm), assemble_eq_none_iff k (.li a imm),
    assemble_eq_none_iff k (.lwz a imm b), assemble_eq_none_iff k (.mtspr sel a), assemble_eq_none_iff k (.mtctr a),
    assemble_eq_none_iff k (.mtlr a), assemble_eq_none_iff k (.mtxer a)⟩

end Sys2Proof
end

section
/-! ## The fetch and the choice of a handler (R45, R61, R80 to R84) -/

namespace Sys2Proof

/-- The bytes of a composed word are the bytes it was composed of (R45). -/
theorem wordBytes_composeBE (b0 b1 b2 b3 : Byte) : wordBytes (composeBE b0 b1 b2 b3) = [b0, b1, b2, b3] := by
  have := b0.isLt
  have := b1.isLt
  have := b2.isLt
  have := b3.isLt
  simp only [wordBytes, List.cons.injEq, ← BitVec.toNat_inj, BitVec.extractLsb'_toNat, composeBE_toNat,
    Nat.shiftRight_eq_div_pow, and_true]
  omega

/-- No bit of a masked word is lost when it is cut to the 8 bits of a key (R61). -/
theorem opKey_eq_zero_iff_masked (w : Word) : opKey w = 0 ↔ (w >>> 24) &&& 0xFC#32 = 0 := by
  have hle : ((w >>> 24) &&& 0xFC#32).toNat ≤ 0xFC := Nat.and_le_right
  simp only [opKey, BitVec.ofNat_eq_ofNat, ← BitVec.toNat_inj, BitVec.toNat_setWidth, BitVec.toNat_ofNat]
  omega

/-- The halt opcode is the primary opcode 0, so that its words are those below `2^26` (R61, R88). -/
theorem opKey_eq_zero_iff_lt (w : Word) : opKey w = 0 ↔ w.toNat < 0x04000000 := by
  have hpo : opKey w = 0 ↔ w.toNat / 2 ^ 26 = 0 := opKey_eq_ofNat_iff (po := 0) (by decide)
  rw [hpo]
  omega

/-! ### The three answers of the decoder over any table (R83) -/

section
variable {table : Byte → Option Handler} {w : Word}

theorem decodeWith_of_key_zero (h0 : opKey w = 0) : decodeWith table w = .ok .halt := if_pos h0

theorem decodeWith_of_unpopulated (h0 : opKey w ≠ 0) (ht : table (opKey w) = none) :
    decodeWith table w = .error (.unimplementedOpcode (opKey w)) := by
  rw [decodeWith, if_neg h0, ht]

theorem decodeWith_of_populated {h : Handler} (h0 : opKey w ≠ 0) (ht : table (opKey w) = some h) :
    decodeWith table w = .ok (decodeOperands h w) := by
  rw [decodeWith, if_neg h0, ht]

end

/-- Settles O12: the masked word of the statement is the key, and the key is the primary opcode alone. -/
theorem dispatchLooksAtKeyAlone : Obligations.DispatchLooksAtKeyAlone := by
  intro table w
  have hzero := opKey_eq_zero_iff_masked w
  refine ⟨fun h0 => decodeWith_of_key_zero (hzero.2 h0), fun h0 => decodeWith_of_unpopulated (mt hzero.1 h0),
    fun h h0 => decodeWith_of_populated (mt hzero.1 h0), fun w' hpo => ?_⟩
  rw [opKey_eq_ofNat w', hpo, opKey_eq_ofNat w]

/-! ### What the table does not name, and what a handler is not -/

/-- A key at which the map registers nothing has no entry (R84). -/
theorem opTable_eq_none_of_notMem {k : OpKeys} {key : Byte} (hkey : key ∉ k.toList) : opTable k key = none := by
  refine Option.eq_none_iff_forall_ne_some.2 fun h ht => hkey ?_
  rw [eq_keyOf_of_opTable ht]
  exact k.keyOf_mem h

/-- No handler is the halt opcode: its key never reaches the table (R83). -/
theorem decodeOperands_ne_halt (h : Handler) (w : Word) : decodeOperands h w ≠ .halt := by
  cases h with
  | addi | lis | sc | mtspr | lwz => exact nofun

/-- Only a word of the halt opcode decodes to `halt` (R88). -/
theorem opKey_eq_zero_of_decode_halt {k : OpKeys} {w : Word} (hd : decode k w = .ok .halt) : opKey w = 0 := by
  obtain ⟨h0, -⟩ | ⟨-, h, -, hi⟩ := decode_eq_ok.1 hd
  · exact h0
  · exact absurd hi.symm (decodeOperands_ne_halt h w)

end Sys2Proof
end

section
/-! ## A step by the word at the pc (R80, R88, R89, R115) -/

namespace Sys2Proof.Machine

/-- Settles O8: the fetch is the four-byte read at the sum, and the word has the bytes it was composed of. -/
theorem fetchReadsWordAtOffset : Obligations.FetchReadsWordAtOffset := fun _ _ _ =>
  ⟨fun hout => memRead4_eq_error.2 ⟨hout, rfl⟩,
    fun hin => ⟨_, memRead4_eq_ok.2 ⟨hin, rfl⟩, wordBytes_composeBE _ _ _ _⟩⟩

/-! ### The step on a word that was fetched -/

section
variable {s : State} {w : Word}

theorem step_of_decode_ok {i : Instr} (hr : s.run = .running) (hw : s.fetchWord s.pc.toNat 0 = .ok w)
    (hd : decode s.cfg.keys w = .ok i) : step s = exec i s :=
  step_of_ok hr (fetchInstr_eq_ok.2 ⟨w, hw, hd⟩)

theorem step_of_decode_error {e : DecodeError} (hr : s.run = .running) (hw : s.fetchWord s.pc.toNat 0 = .ok w)
    (hd : decode s.cfg.keys w = .error e) : step s = .next (s.raise (decodeReason e)) :=
  step_of_error hr (fetchInstr_eq_error.2 (.inr ⟨w, e, hw, hd, rfl⟩))

end

/-! ### Which steps end the run normally -/

/-- Of the instructions only `halt` ends a run with `EndOfProgram` (R88, R130). -/
theorem Effect.eq_halt_of_endOfProgram {s t : State} {i : Instr} (h : Effect s i t) (hr : s.run = .running)
    (hend : t.run = .halted .endOfProgram) : i = .halt := by
  cases h with
  | halt => rfl
  | addi | lis | lwz | mtsprListed | mtsprUnlisted | scWrite | scOther => exact nomatch hr.symm.trans hend
  | lwzOutside | scWriteOutside | scExit => exact nomatch hend

/-- No condition raised before a handler is `EndOfProgram`: the halt opcode has a handler of its own (R88, R115). -/
theorem fetchInstr_ne_endOfProgram (s : State) : s.fetchInstr ≠ .error .endOfProgram := by
  intro h
  obtain ⟨-, ⟨⟩⟩ | ⟨w, ⟨key⟩, -, -, ⟨⟩⟩ := fetchInstr_eq_error.1 h

/-- A step that ends the run with `EndOfProgram` has fetched `halt` (R88). -/
theorem fetchInstr_of_endOfProgram {s t : State} (hs : step s = .next t) (hend : t.run = .halted .endOfProgram) :
    s.fetchInstr = .ok .halt := by
  obtain ⟨hr, ⟨reason, hf, rfl⟩ | ⟨i, hf, heff⟩⟩ := step_effect hs
  · cases hend
    exact absurd hf (fetchInstr_ne_endOfProgram s)
  · rwa [heff.eq_halt_of_endOfProgram hr hend] at hf

/-- Settles O27: the handler raises `EndOfProgram`. -/
theorem haltResult : Obligations.HaltResult := fun _ => rfl

/-- Settles O22: the words below `2^26` are those of key 0, and a normal end can only come from one of them. -/
theorem haltWordEndsRun : Obligations.HaltWordEndsRun := by
  intro s w hr hw
  refine ⟨fun hlt => ?_, fun hge t hs hend => ?_⟩
  · have h0 := (opKey_eq_zero_iff_lt w).2 hlt
    rw [step_of_decode_ok hr hw (decode_of_opKey_eq_zero h0 _), haltResult]
  · obtain ⟨w', hw', hd⟩ := fetchInstr_eq_ok.1 (fetchInstr_of_endOfProgram hs hend)
    cases hw.symm.trans hw'
    exact absurd ((opKey_eq_zero_iff_lt w).1 (opKey_eq_zero_of_decode_halt hd)) (Nat.not_lt.2 hge)

/-- Settles O23: the key of the word is not the halt key and no key of the map, so the decoder refuses it. -/
theorem unregisteredKeyEndsRun : Obligations.UnregisteredKeyEndsRun := by
  intro s w hr hw hge hkeys
  have h0 : opKey w ≠ 0 := mt (opKey_eq_zero_iff_lt w).1 (Nat.not_lt.2 hge)
  have ht : opTable s.cfg.keys (opKey w) = none :=
    opTable_eq_none_of_notMem fun hmem => hkeys _ hmem (opKey_toNat w)
  rw [step_of_decode_error hr hw (decodeWith_of_unpopulated h0 ht), ← opKey_eq_ofNat]
  rfl

end Sys2Proof.Machine
end

section
/-! ## The arithmetic and load instructions (R95 to R98) -/

namespace Sys2Proof.Machine

section
variable (s : State) (fa fb : GprIdx) (imm : BitVec 16)

/-! ### The operands as numbers -/

/-- The sign bits of the immediate are shifted out, so the operand of `lis` is the same whatever the sign (R66, R95). -/
theorem lisOperand_eq_ofNat : lisOperand imm = BitVec.ofNat 32 (imm.toNat * 65536) := by
  apply BitVec.eq_of_toNat_eq
  simp only [lisOperand, BitVec.toNat_shiftLeft, Nat.shiftLeft_eq, BitVec.toNat_signExtend, BitVec.toNat_setWidth,
    BitVec.toNat_ofNat]
  split <;> omega

/-- With the field 0 the result is the immediate, else the sum modulo `2^32` (R96, R98). -/
theorem addiResult_eq_ofNat :
    addiResult s fb imm
      = BitVec.ofNat 32 (if fb.val = 0 then imm.toNat else (s.gpr fb).toNat + imm.toNat) := by
  by_cases hfb : fb = 0
  · rw [addiResult, if_pos hfb, if_pos (Fin.val_eq_zero_iff.2 hfb), BitVec.ofNat_toNat, zextImm]
  · rw [addiResult, if_neg hfb, if_neg (mt Fin.val_eq_zero_iff.1 hfb), BitVec.ofNat_add, BitVec.ofNat_toNat,
      BitVec.ofNat_toNat, BitVec.setWidth_eq, zextImm]

/-- The address of `lwz` as a number: the low 28 bits of the base and the displacement (R51, R97). -/
theorem lwzAddress_eq_mod : lwzAddress s fb imm = (s.gpr fb).toNat % 2 ^ 28 + imm.toNat :=
  (maskedAddressesAsNumbers s fb imm).1

/-! ### The ways these instructions end -/

/-- What a handler that writes a general register leaves, field by field. -/
theorem setGpr_advance_eq (v : Word) :
    (s.setGpr fa v).advance = { s with regs := s.regs.set fa.val v, pc := s.pc + 4 } := rfl

theorem reg_setGpr_other {r : RegIdx} (hr : r.val ≠ fa.val) (v : Word) : (s.setGpr fa v).reg r = s.reg r :=
  State.reg_setReg_other s (gprIndex fa) r v fun h => hr (congrArg Fin.val h).symm

variable {s fa fb imm}

/-- `addi`, `lis` and `lwz` write their general register and complete, or it was `lwz` and its byte lay outside memory
(R95 to R97). -/
theorem Effect.of_generalRegisterWriter {i : Instr} {t : State} (h : Effect s i t)
    (hi : i ∈ [Instr.addi fa fb imm, .lis fa imm, .lwz fa fb imm]) :
    (∃ v, t = (s.setGpr fa v).advance) ∨ (i = .lwz fa fb imm ∧ t = s.raise .outOfBounds) := by
  simp only [List.mem_cons, List.not_mem_nil, or_false] at hi
  obtain rfl | rfl | rfl := hi
  · cases h with | addi => exact .inl ⟨_, rfl⟩
  · cases h with | lis => exact .inl ⟨_, rfl⟩
  · cases h with
    | lwz => exact .inl ⟨_, rfl⟩
    | lwzOutside => exact .inr ⟨rfl, rfl⟩

end

/-! ### What each does, and what it leaves unchanged -/

/-- Settles O28: the operand of `lis` as a number. -/
theorem lisResult : Obligations.LisResult := by
  intro s fa imm
  rw [exec_of_effect (.lis fa imm), setGpr_advance_eq, lisOperand_eq_ofNat]

/-- Settles O29: the two forms of the sum as one number. (`addiResult` itself names a function of the model.) -/
theorem addiResult_holds : Obligations.AddiResult := by
  intro s fa fb imm
  rw [exec_of_effect (.addi fa fb imm), setGpr_advance_eq, addiResult_eq_ofNat]

/-- Settles O30: inside memory the read gives the byte, which is then zero-extended. -/
theorem lwzResult : Obligations.LwzResult := by
  intro s fa fb imm hin
  rw [← lwzAddress_eq_mod] at hin ⊢
  have hb : s.memRead1 (lwzAddress s fb imm) = .ok (s.mem.read (lwzAddress s fb imm)) := memRead1_eq_ok.2 ⟨hin, rfl⟩
  rw [exec_of_effect (.lwz fa hb), setGpr_advance_eq, BitVec.ofNat_toNat]

/-- Settles O31: outside memory the read gives `OutOfBounds`, which is raised in the state itself. -/
theorem lwzOutsideMemory : Obligations.LwzOutsideMemory := by
  intro s fa fb imm hout
  rw [← lwzAddress_eq_mod] at hout
  exact exec_of_effect (.lwzOutside fa (memRead1_eq_error.2 ⟨hout, rfl⟩))

/-- Settles O38: the two ways these instructions end. -/
theorem generalRegisterWritersFrame : Obligations.GeneralRegisterWritersFrame := by
  intro fa fb imm i hi s t h
  obtain ⟨v, rfl⟩ | ⟨rfl, rfl⟩ := (exec_eq_next.1 h).of_generalRegisterWriter hi
  · exact ⟨fun _ hr => reg_setGpr_other s fa hr v, fun _ => rfl, rfl, rfl, .inl rfl⟩
  · exact ⟨fun _ _ => rfl, fun _ => rfl, rfl, rfl, .inr ⟨rfl, rfl, fun _ => rfl⟩⟩

end Sys2Proof.Machine
end

section
/-! ## The move to a special register (R65, R100) -/

namespace Sys2Proof

/-- A word with the primary opcode of `mtspr` is that instruction under the keys of this hardware (R67, R100). -/
theorem decode_of_primary_opcode_mtspr {w : Word} (hpo : w.toNat / 2 ^ 26 = 31) :
    decode defaultKeys w = .ok (.mtspr (fieldFA w) (fieldSEL w)) :=
  decode_of_opKey_eq_keyOf (h := .mtspr) (by decide) ((opKey_eq_ofNat_iff (by decide)).2 hpo)

/-- The field `FB` is the upper part of the selector (R65). -/
theorem le_fieldSEL_of_fieldFB_ne_zero {w : Word} (hfb : w.toNat / 2 ^ 16 % 32 ≠ 0) :
    2 ^ 16 ≤ (fieldSEL w).toNat := by
  rw [fieldSEL_toNat]
  omega

namespace Machine

section
variable {sel : BitVec 21}

/-! ### The selector -/

/-- The selectors that name no register are those other than the three listed values (R100). -/
theorem sprSelect_eq_none : sprSelect sel = none ↔ sel.toNat ∉ [0x1001, 0x1000, 0x0001] := by
  simp [sprSelect, ite_eq_iff, ← BitVec.toNat_inj]

/-- Every listed selector is below `2^16`, so its part in the field `FB` is 0 (R100, corner cases). -/
theorem sprSelect_eq_none_of_le (h : 2 ^ 16 ≤ sel.toNat) : sprSelect sel = none := by
  rw [sprSelect_eq_none]
  simp only [List.mem_cons, List.not_mem_nil, or_false]
  omega

/-- No selector names a general register or CR (R23, R100). -/
theorem sprSelect_ne_some_of_le {j : RegIdx} (hj : j ≤ 32) : sprSelect sel ≠ some j :=
  fun hsel => (cr_lt_of_sprSelect hsel).not_ge hj

/-- `mtspr` leaves every register alone that its selector does not name (R100). -/
theorem Effect.reg_of_not_selected {s t : State} {fa : GprIdx} (h : Effect s (.mtspr fa sel) t) {j : RegIdx}
    (hj : sprSelect sel ≠ some j) : t.reg j = s.reg j := by
  cases h with
  | @mtsprListed _ _ r hsel =>
    have hne : r ≠ j := fun e => hj (e ▸ hsel)
    exact State.reg_setReg_other s r j _ hne
  | mtsprUnlisted => rfl

end

/-! ### What it does, and what it leaves unchanged -/

/-- Settles O32: the register that each listed selector names, and no register for any other. -/
theorem mtsprResult : Obligations.MtsprResult := by
  intro s fa sel
  have hlisted {r : RegIdx}
      (hsel : (sel = 0x001001 ∧ r = 34) ∨ (sel = 0x001000 ∧ r = 33) ∨ (sel = 0x000001 ∧ r = 35)) :
      exec (.mtspr fa sel) s = .next { s with regs := s.regs.set r (s.gpr fa), pc := s.pc + 4 } :=
    exec_of_effect (.mtsprListed fa (sprSelect_eq_some.2 hsel))
  exact ⟨fun hctr => hlisted (.inl ⟨hctr, rfl⟩), fun hlr => hlisted (.inr (.inl ⟨hlr, rfl⟩)),
    fun hxer => hlisted (.inr (.inr ⟨hxer, rfl⟩)),
    fun hother => exec_of_effect (.mtsprUnlisted fa (sprSelect_eq_none.2 hother))⟩

/-- Settles O33: a selector with a non-zero `FB` part is too large to be a listed one. -/
theorem mtsprWithBFieldIsNoOp : Obligations.MtsprWithBFieldIsNoOp := by
  intro s w hr hkeys hw hpo hfb
  have hd : decode s.cfg.keys w = .ok (.mtspr (fieldFA w) (fieldSEL w)) := by
    rw [hkeys, decode_of_primary_opcode_mtspr hpo]
  have hsel : sprSelect (fieldSEL w) = none := sprSelect_eq_none_of_le (le_fieldSEL_of_fieldFB_ne_zero hfb)
  rw [step_of_decode_ok hr hw hd]
  exact exec_of_effect (.mtsprUnlisted (fieldFA w) hsel)

/-- Settles O39: the registers by the selector that would name them, the rest by the two ways the handler ends. -/
theorem specialMoveFrame : Obligations.SpecialMoveFrame := by
  intro fa sel s t h
  have heff := exec_eq_next.1 h
  have hrest : (∀ a, t.memRead1 a = s.memRead1 a) ∧ t.hostlog = s.hostlog ∧ t.run = s.run ∧ t.cfg = s.cfg := by
    cases heff with
    | mtsprListed | mtsprUnlisted => exact ⟨fun _ => rfl, rfl, rfl, rfl⟩
  refine ⟨fun r => heff.reg_of_not_selected (sprSelect_ne_some_of_le (State.gprIndex_lt r).le),
    heff.reg_of_not_selected (sprSelect_ne_some_of_le le_rfl), fun hlr => heff.reg_of_not_selected ?_,
    fun hctr => heff.reg_of_not_selected ?_, fun hxer => heff.reg_of_not_selected ?_, hrest⟩
  · simpa [sprSelect_eq_some] using hlr
  · simpa [sprSelect_eq_some] using hctr
  · simpa [sprSelect_eq_some] using hxer

end Machine
end Sys2Proof
end

section
/-! ## The system call and the halt opcode (R88, R105 to R110) -/

namespace Sys2Proof.Machine

section
variable {s : State}

/-! ### The arguments of the call as numbers -/

/-- The descriptor or the exit code: from `2^31` on the register stands for a negative number (R109). -/
theorem scArgument_eq_ite :
    scArgument s = if (s.gpr 3).toNat < 2 ^ 31 then ((s.gpr 3).toNat : Int) else (s.gpr 3).toNat - 2 ^ 32 := by
  rw [scArgument, asI32, BitVec.toInt_eq_toNat_cond]
  split <;> split <;> omega

/-- The start of the write buffer: bits 27 to 20 and 15 to 0 of the register (R51, R105). -/
theorem scStart_eq_mod : scStart s = (s.gpr 4).toNat / 2 ^ 20 % 2 ^ 8 * 2 ^ 20 + (s.gpr 4).toNat % 2 ^ 16 :=
  and_scMask_toNat (s.gpr 4)

/-- A buffer that lies in memory, or is empty, is its bytes at the ascending addresses from its start (R46). -/
theorem memBytes_of_fits {a len : Nat} (hfits : len = 0 ∨ a + len ≤ s.cfg.capacity) :
    s.memBytes a len = .ok ((List.range len).map fun i => s.mem.read (a + i)) := by
  rw [memBytes_eq_ok, List.range'_eq_map_range, List.map_map]
  exact ⟨hfits, rfl⟩

/-! ### What every ending of the two instructions leaves unchanged -/

/-- Neither `sc` nor `halt` writes a register (R88, R105). -/
theorem Effect.regs_of_system {t : State} {i : Instr} (h : Effect s i t) (hi : i = .sc ∨ i = .halt) :
    t.regs = s.regs := by
  obtain rfl | rfl := hi
  · cases h with
    | scWrite | scWriteOutside | scExit | scOther => rfl
  · cases h with
    | halt => rfl

/-- What a byte read gives depends on the memory and the configuration alone (R44). -/
theorem memRead1_congr {t : State} (hmem : t.mem = s.mem) (hcfg : t.cfg = s.cfg) (a : Nat) :
    t.memRead1 a = s.memRead1 a := by
  simp only [State.memRead1, hmem, hcfg]

end

/-! ### What each call does, and what it leaves unchanged -/

/-- Settles O34: the buffer fits, so it is read whole and logged with the descriptor. -/
theorem scWriteResult : Obligations.ScWriteResult := by
  rintro s start len hn rfl rfl hfits
  rw [← scStart_eq_mod] at hfits ⊢
  rw [← scArgument_eq_ite]
  exact exec_of_effect (.scWrite hn (memBytes_of_fits hfits))

/-- Settles O35: the buffer does not fit, so the condition is raised in the state itself. -/
theorem scWriteOutsideMemory : Obligations.ScWriteOutsideMemory := by
  rintro s start len hn rfl rfl hlen hout
  rw [← scStart_eq_mod] at hout
  exact exec_of_effect (.scWriteOutside hn (memBytes_eq_error.2 ⟨hlen, hout, rfl⟩))

/-- Settles O36: the code is the signed argument, both in the log and in the condition. -/
theorem scExitResult : Obligations.ScExitResult := by
  rintro s code hn rfl
  rw [← scArgument_eq_ite]
  exact exec_of_effect (.scExit hn)

/-- Settles O37: a register that holds neither number is neither call, and only `sc` has an effect on the log. -/
theorem scOtherNumberIsNoOp : Obligations.ScOtherNumberIsNoOp := by
  refine ⟨fun s h4 h1 => ?_, fun i s t h hi => ?_⟩
  · exact exec_of_effect (.scOther (mt (congrArg BitVec.toNat) h4) (mt (congrArg BitVec.toNat) h1))
  · obtain hlog | ⟨hsc, -⟩ := (exec_eq_next.1 h).hostlog
    · exact hlog
    · exact absurd hsc hi

/-- Settles O40: the registers by the endings of the two instructions; memory, configuration and log by what holds of
every instruction. -/
theorem systemInstructionsFrame : Obligations.SystemInstructionsFrame := by
  intro i s t hi h
  have heff := exec_eq_next.1 h
  obtain ⟨hmem, hcfg⟩ := heff.mem_cfg
  refine ⟨fun r => ?_, memRead1_congr hmem hcfg, hcfg, ?_, heff.hostlog.imp_right And.right⟩
  · rw [State.reg, State.reg, heff.regs_of_system hi]
  · rintro rfl
    cases heff with
    | halt => exact ⟨rfl, rfl⟩

end Sys2Proof.Machine
end

section
/-! ## The execution loop (R115, R116, R118, R119, R133) -/

namespace Sys2Proof

/-- A word is composed of its own bytes, wherever they were read from (R45). -/
theorem composeBE_eq_of_bytes {b0 b1 b2 b3 : Byte} {w : Word} (h : [b0, b1, b2, b3] = wordBytes w) :
    composeBE b0 b1 b2 b3 = w := by
  simp only [wordBytes, List.cons.injEq, and_true] at h
  obtain ⟨rfl, rfl, rfl, rfl⟩ := h
  exact composeBE_wordBytes w

namespace Machine

/-! ### The instruction a step runs, and the steps that run none -/

/-- Settles O20: the fetch and the decoder give the instruction, and the step is its meaning. -/
theorem stepRunsDecodedInstruction : Obligations.StepRunsDecodedInstruction :=
  fun _ _ _ => step_of_decode_ok

/-- Settles O21: the fetch composes the canonical word, and that word decodes to the instruction. -/
theorem stepRunsEncodedInstruction : Obligations.StepRunsEncodedInstruction := by
  intro s i hr hkeys hin hbytes
  have hword : s.fetchWord s.pc.toNat 0 = .ok (encode s.cfg.keys i) :=
    memRead4_eq_ok.2 ⟨hin, (composeBE_eq_of_bytes hbytes).symm⟩
  exact step_of_decode_ok hr hword (decode_encode hkeys i)

/-- Settles O24: the fetch fails before any handler. -/
theorem pcOutsideMemoryEndsRun : Obligations.PcOutsideMemoryEndsRun :=
  fun _ hr hout => step_of_error hr (fetchInstr_eq_error.2 (.inl ⟨hout, rfl⟩))

/-- Settles O25: `halted` is the fault of exactly the states whose run has ended. -/
theorem haltedStateHasNoStep : Obligations.HaltedStateHasNoStep :=
  fun _ reason h => step_eq_fault.2 ⟨reason, h, rfl⟩

/-! ### Which instructions end a run in a fault -/

/-- Of the instructions only `lwz` and the write call of `sc` raise a fault: those are the two that read memory as data
(R97, R106, R133). -/
theorem Effect.eq_lwz_or_write_of_fault {s t : State} {i : Instr} (h : Effect s i t) (hr : s.run = .running)
    {reason : HaltReason} (hend : t.run = .halted reason) (hfault : reason.isFault = true) :
    (∃ fa fb imm, i = .lwz fa fb imm) ∨ (i = .sc ∧ scNumber s = 4) := by
  cases h with
  | lwzOutside => exact .inl ⟨_, _, _, rfl⟩
  | scWriteOutside hn => exact .inr ⟨rfl, hn⟩
  | addi | lis | lwz | mtsprListed | mtsprUnlisted | scWrite | scOther => exact nomatch hr.symm.trans hend
  | halt | scExit =>
    cases hend
    exact nomatch hfault

/-- Settles O44: either no instruction was fetched, or the one fetched raised the fault itself. -/
theorem faultsComeFromFetchLoadOrWriteAlone : Obligations.FaultsComeFromFetchLoadOrWriteAlone := by
  intro s t reason hs hend hfault
  obtain ⟨hr, ⟨_, hf, -⟩ | ⟨i, hf, heff⟩⟩ := step_effect hs
  · exact .inl fun i hi => nomatch hf.symm.trans hi
  · obtain ⟨fa, fb, imm, rfl⟩ | ⟨rfl, hn⟩ := heff.eq_lwz_or_write_of_fault hr hend hfault
    · exact .inr (.inl ⟨fa, fb, imm, hf⟩)
    · exact .inr (.inr ⟨hf, hn⟩)

/-! ### Every run ends

The room between the pc and the end of memory shrinks by one instruction at each step that does not end the run. -/

/-- How many instructions, read one after the other, fit between the pc and the end of memory: the measure of R119. -/
def State.room (s : State) : Nat := (s.cfg.capacity - s.pc.toNat) / 4

/-- An instruction that lies in memory takes one from the room, since the pc cannot wrap below `CAPACITY` (R5, R28). -/
theorem room_of_pc_add_four {s t : State} (hcap : s.cfg.capacity ≤ 2 ^ 32 - 1)
    (hin : s.pc.toNat + 4 ≤ s.cfg.capacity) (hpc : t.pc = s.pc + 4) (hcfg : t.cfg = s.cfg) : t.room + 1 = s.room := by
  have hadd : t.pc.toNat = s.pc.toNat + 4 := by
    rw [hpc]
    bv_omega
  rw [State.room, State.room, hcfg, hadd]
  omega

/-- Every instruction completes or ends the run: the three ways not to complete each raise a condition (R27). -/
theorem Effect.completes_or_ended {s t : State} {i : Instr} (h : Effect s i t) :
    (t.pc = s.pc + 4 ∧ t.run = s.run) ∨ t.ended := by
  obtain hdone | ⟨-, ⟨-, hrun⟩ | ⟨-, _, hrun⟩ | hrun⟩ := pcAdvancesByFourOrStays i s t (exec_of_effect h)
  · exact .inl hdone
  all_goals exact .inr ⟨_, hrun⟩

/-- A running machine has a step, and the step ends the run or takes one from the room (R27, R115). -/
theorem step_ends_or_shrinks_room {s : State} (hr : s.run = .running) (hcap : s.cfg.capacity ≤ 2 ^ 32 - 1) :
    ∃ t, step s = .next t ∧ (t.ended ∨ t.run = .running ∧ t.cfg = s.cfg ∧ t.room + 1 = s.room) := by
  cases hf : s.fetchInstr with
  | error reason => exact ⟨_, step_of_error hr hf, .inl ⟨reason, rfl⟩⟩
  | ok i =>
    obtain ⟨t, hexec, heff⟩ := effect_of_exec i s
    refine ⟨t, (step_of_ok hr hf).trans hexec, ?_⟩
    obtain ⟨hpc, hrun⟩ | hended := heff.completes_or_ended
    · obtain ⟨-, hcfg⟩ := heff.mem_cfg
      exact .inr ⟨hrun.trans hr, hcfg, room_of_pc_add_four hcap (pc_add_four_le_of_fetchInstr hf) hpc hcfg⟩
    · exact .inl hended

/-- A running machine ends within one step more than its room holds instructions, by induction on the room. -/
theorem exists_ended_within_room {s : State} (hr : s.run = .running) (hcap : s.cfg.capacity ≤ 2 ^ 32 - 1) :
    ∃ k t, k ≤ s.room + 1 ∧ runSteps k s = .next t ∧ t.ended := by
  induction hn : s.room generalizing s with
  | zero =>
    obtain ⟨t, hs, hended | ⟨-, -, hroom⟩⟩ := step_ends_or_shrinks_room hr hcap
    · exact ⟨1, t, by omega, runSteps_of_next hs 0, hended⟩
    · omega
  | succ n ih =>
    obtain ⟨t, hs, hended | ⟨hrun, hcfg, hroom⟩⟩ := step_ends_or_shrinks_room hr hcap
    · exact ⟨1, t, by omega, runSteps_of_next hs 0, hended⟩
    · obtain ⟨k, u, hk, hsteps, hended⟩ := ih hrun (hcfg ▸ hcap) (by omega)
      exact ⟨k + 1, u, by omega, (runSteps_of_next hs k).trans hsteps, hended⟩

/-- A run that has ended never steps again (R118, R139). -/
theorem step_ne_next_of_ended {s : State} (h : s.ended) (t : State) : step s ≠ .next t := by
  obtain ⟨reason, hrun⟩ := h
  rw [haltedStateHasNoStep s reason hrun]
  exact nofun

/-- Settles O53: the room of the state is the bound. -/
theorem everyRunEnds : Obligations.EveryRunEnds := by
  intro s hr hcap
  obtain ⟨k, t, hk, hsteps, hended⟩ := exists_ended_within_room hr hcap
  exact ⟨k, t, hk, hsteps, hended, step_ne_next_of_ended hended⟩

end Machine
end Sys2Proof
end

section
/-! ## The conditions: when a run ends, what ends it and what is kept (R130 to R133, R145) -/

namespace Sys2Proof.Machine

/-! ### A step exists as long as the run has not ended -/

/-- From a running state the step is the condition that the fetch raised, or the effect of the instruction fetched. -/
theorem exists_step_of_running {s : State} (hr : s.run = .running) : ∃ t, step s = .next t := by
  cases hf : s.fetchInstr with
  | error reason => exact ⟨_, step_of_error hr hf⟩
  | ok i =>
    obtain ⟨t, hexec, -⟩ := effect_of_exec i s
    exact ⟨t, (step_of_ok hr hf).trans hexec⟩

/-- Settles O26: a running state has the step of its fetch, and a state whose run has ended has none. -/
theorem runningAlwaysSteps : Obligations.RunningAlwaysSteps :=
  fun _ => ⟨exists_step_of_running, fun reason hend => step_ne_next_of_ended ⟨reason, hend⟩⟩

/-! ### A step that ends the run raises a condition in the state itself -/

section
variable {s t : State} {reason : HaltReason}

/-- An instruction that ends the run only raises the condition, but for the exit call, which logs its code first
(R107, R131). -/
theorem Effect.eq_raise_or_scExit {i : Instr} (h : Effect s i t) (hr : s.run = .running)
    (hend : t.run = .halted reason) :
    ((∀ code, reason ≠ .hostExit code) ∧ t = s.raise reason)
      ∨ (reason = .hostExit (scArgument s) ∧ t = Machine.scExit s) := by
  cases h with
  | halt | lwzOutside | scWriteOutside =>
    cases hend
    exact .inl ⟨nofun, rfl⟩
  | scExit =>
    cases hend
    exact .inr ⟨rfl, rfl⟩
  | addi | lis | lwz | mtsprListed | mtsprUnlisted | scWrite | scOther => exact nomatch hr.symm.trans hend

/-- What is raised before any handler is a fault: `EndOfProgram` and `HostExit` have handlers of their own (R115, R130). -/
theorem isFault_of_fetchInstr (hf : s.fetchInstr = .error reason) : reason.isFault = true := by
  obtain ⟨-, rfl⟩ | ⟨-, ⟨key⟩, -, -, rfl⟩ := fetchInstr_eq_error.1 hf
  · rfl
  · rfl

/-- A step that ends the run only raises the condition, but for the exit call (R107, R131). -/
theorem step_eq_raise_or_scExit (hs : step s = .next t) (hend : t.run = .halted reason) :
    ((∀ code, reason ≠ .hostExit code) ∧ t = s.raise reason)
      ∨ (reason = .hostExit (scArgument s) ∧ t = scExit s) := by
  obtain ⟨hr, ⟨raised, hf, rfl⟩ | ⟨i, -, heff⟩⟩ := step_effect hs
  · cases hend
    refine .inl ⟨?_, rfl⟩
    rintro code rfl
    exact nomatch isFault_of_fetchInstr hf
  · exact heff.eq_raise_or_scExit hr hend

end

/-- Settles O42: raising a condition changes the run state alone, and the exit call appends its one request. -/
theorem conditionsArePrecise : Obligations.ConditionsArePrecise := by
  intro s t reason hs hend
  obtain ⟨hexit, rfl⟩ | ⟨rfl, rfl⟩ := step_eq_raise_or_scExit hs hend
  · exact ⟨rfl, rfl, rfl, rfl, .inr ⟨hexit, rfl⟩⟩
  · exact ⟨rfl, rfl, rfl, rfl, .inl ⟨_, rfl, rfl⟩⟩

/-! ### The causes of `OutOfBounds` (R133) -/

section
variable {s t : State}

/-- The fetch raises `OutOfBounds` exactly when the word at the pc does not lie in memory (R81, R116). -/
theorem fetchInstr_eq_outOfBounds :
    s.fetchInstr = .error .outOfBounds ↔ s.cfg.capacity ≤ s.pc.toNat + 3 := by
  rw [fetchInstr_eq_error]
  constructor
  · rintro (⟨hout, -⟩ | ⟨-, ⟨key⟩, -, -, ⟨⟩⟩)
    exact hout
  · exact fun hout => .inl ⟨hout, rfl⟩

/-- Of the instructions `lwz` raises `OutOfBounds` for its byte, and the write call of `sc` for its buffer. -/
theorem Effect.read_outside_of_outOfBounds {i : Instr} (h : Effect s i t) (hr : s.run = .running)
    (hend : t.run = .halted .outOfBounds) :
    (∃ fa fb imm, i = .lwz fa fb imm ∧ s.cfg.capacity ≤ lwzAddress s fb imm)
      ∨ (i = .sc ∧ scNumber s = 4 ∧ 0 < scLength s ∧ s.cfg.capacity < scStart s + scLength s) := by
  cases h with
  | lwzOutside fa hb =>
    obtain ⟨hout, -⟩ := memRead1_eq_error.1 hb
    exact .inl ⟨fa, _, _, rfl, hout⟩
  | scWriteOutside hn hb =>
    obtain ⟨hlen, hout, -⟩ := memBytes_eq_error.1 hb
    exact .inr ⟨rfl, hn, hlen, hout⟩
  | addi | lis | lwz | mtsprListed | mtsprUnlisted | scWrite | scOther => exact nomatch hr.symm.trans hend
  | halt | scExit => exact nomatch hend

/-- A step that is known to raise `OutOfBounds` ends the run with it. -/
theorem outOfBounds_of_step_eq (hs : step s = .next t)
    (hraise : step s = .next (s.raise .outOfBounds)) : t.run = .halted .outOfBounds := by
  cases hs.symm.trans hraise
  rfl

end

/-- Settles O43: the fetch or one of the two instructions that read memory raised it; each cause raises it, by
the fetch and by the statements about `lwz` (O31) and the write call (O35) outside memory. -/
theorem outOfBoundsHasTheseCausesAlone : Obligations.OutOfBoundsHasTheseCausesAlone := by
  intro s t hs
  obtain ⟨hr, hcases⟩ := step_effect hs
  constructor
  · intro hend
    obtain ⟨raised, hf, rfl⟩ | ⟨i, hf, heff⟩ := hcases
    · cases hend
      exact .inl (fetchInstr_eq_outOfBounds.1 hf)
    · obtain ⟨fa, fb, imm, rfl, hout⟩ | ⟨rfl, hn, hlen, hout⟩ := heff.read_outside_of_outOfBounds hr hend
      · rw [lwzAddress_eq_mod] at hout
        exact .inr (.inl ⟨fa, fb, imm, hf, hout⟩)
      · rw [scStart_eq_mod] at hout
        exact .inr (.inr ⟨hf, congrArg BitVec.toNat hn, hlen, hout⟩)
  · rintro (hout | ⟨fa, fb, imm, hf, hout⟩ | ⟨hf, hn, hlen, hout⟩)
    · exact outOfBounds_of_step_eq hs (step_of_error hr (fetchInstr_eq_outOfBounds.2 hout))
    · exact outOfBounds_of_step_eq hs ((step_of_ok hr hf).trans (lwzOutsideMemory s fa fb imm hout))
    · have hnumber : s.gpr 0 = 4 := BitVec.eq_of_toNat_eq hn
      exact outOfBounds_of_step_eq hs
        ((step_of_ok hr hf).trans (scWriteOutsideMemory s _ _ hnumber rfl rfl hlen hout))

end Sys2Proof.Machine
end

section
/-! ## Words written out from the encoding (R61, R70, R83) -/

namespace Sys2Proof

/-- Under this hardware's keys a word is decoded by recognising it as the canonical word of an instruction. -/
theorem decode_of_eq_encode {w : Word} {i : Instr} (hw : w = encode defaultKeys i) : decode defaultKeys w = .ok i :=
  hw ▸ decode_encode (by decide) i

/-- Settles O18: seven of the words are canonical, `0x03FFFFFF` and `0x44000002` set bits which their handler ignores,
so that they decode by their key, and the key `0x48` of the last word is no handler's. -/
theorem writtenWordsDecode : Obligations.WrittenWordsDecode := by
  have halt_ignored : decode defaultKeys 0x03FFFFFF = .ok .halt := decode_of_opKey_eq_zero (by decide) _
  have sc_ignored : decode defaultKeys 0x44000002 = .ok .sc :=
    decode_of_opKey_eq_keyOf (h := .sc) (by decide) (by decide)
  have unpopulated : decode defaultKeys 0x4B123456 = .error (.unimplementedOpcode 0x48) :=
    decodeWith_of_unpopulated (w := 0x4B123456) (by decide) (by decide)
  refine ⟨?halt, halt_ignored, ?lis, ?lisHigh, ?addi, ?lwz, ?mtspr, ?mtsprUnlisted, sc_ignored, unpopulated⟩
  all_goals exact decode_of_eq_encode (by decide)

end Sys2Proof
end
